-- ==== Sys2Proof/Word.lean ====
section
/-! DEFINITION. The widths of the DES core's values (00_scope.md R5, R6): unsigned bit vectors, bit 0 least significant (R7). -/

namespace Sys2Proof

/-- A host data word: 64 bits (R6). Keys and blocks have the same width (R5). -/
abbrev Word := BitVec 64

/-- An element of MOUT or PTAB, and a length register: 8 bits (R6). -/
abbrev Byte := BitVec 8

/-- A MIN element: one code unit of the input message, 32 bits wide (R6). -/
abbrev CodeUnit := BitVec 32

/-- A half-block, Left or Right: 32 bits (R5). -/
abbrev Half := BitVec 32

/-- A round subkey: 48 bits (R5). -/
abbrev Subkey := BitVec 48

/-- A key-schedule half, C or D: 28 bits (R5). -/
abbrev KeyHalf := BitVec 28

end Sys2Proof
end

