-- ==== Sys2Proof/Syntax.lean ====
section
/-! DEFINITION. The 18 commands of spec/opcode_table.json (30_encoding.md R97), one constructor a row, with their encoded operands. -/

namespace Sys2Proof

/-- The two external encodings of a message, `raw` and `hex` (44_message_framer.md R250). -/
inductive Enc where
  | raw
  | hex
deriving DecidableEq, Repr

/-- A command. Every operand that is not written here is an implicit register or buffer (30_encoding.md R104).
`n` and `g` are the numbers an assembler line names (R101); `Instr.WellFormed` says which of them have an encoding. -/
inductive Instr where
  /-- DERIVE (41_key_schedule.md R168) -/
  | derive
  /-- ENCB (43_block_cipher.md R226) -/
  | encb
  /-- DECB (43_block_cipher.md R227) -/
  | decb
  /-- ENCM with IENC and OENC (44_message_framer.md R259) -/
  | encm (ienc oenc : Enc)
  /-- DECM with IENC and OENC (44_message_framer.md R260) -/
  | decm (ienc oenc : Enc)
  /-- FEIS (42_round_function.md R204) -/
  | feis
  /-- PERM, by the host table PTAB (40_bitseq.md R124) -/
  | perm
  /-- PERM.IP (40_bitseq.md R125) -/
  | permIp
  /-- PERM.FP (40_bitseq.md R126) -/
  | permFp
  /-- PERM.E (40_bitseq.md R127) -/
  | permE
  /-- PERM.P (40_bitseq.md R128) -/
  | permP
  /-- PERM.PC1 (40_bitseq.md R129) -/
  | permPc1
  /-- PERM.PC2 (40_bitseq.md R130) -/
  | permPc2
  /-- ROTL by the amount N (40_bitseq.md R131) -/
  | rotl (n : Nat)
  /-- XOR (40_bitseq.md R132) -/
  | xor
  /-- CAT (40_bitseq.md R133) -/
  | cat
  /-- SBOX with the group index G (42_round_function.md R203) -/
  | sbox (g : Nat)
  /-- CONV with IENC and OENC (44_message_framer.md R261) -/
  | conv (ienc oenc : Enc)
deriving DecidableEq, Repr

end Sys2Proof
end

