-- ==== Sys2Proof/WellFormed.lean ====
section
/-! DEFINITION. Which commands have a command word: the field ranges of 30_encoding.md R95, R96 and R101. -/

namespace Sys2Proof

/-- R95: N is a 6-bit field, 0 to 63. R96: G is a 3-bit field, 0 to 7. The other commands have no number to check. -/
def Instr.wf : Instr → Bool
  | .rotl n => decide (n < 64)
  | .sbox g => decide (g < 8)
  | .derive | .encb | .decb | .encm _ _ | .decm _ _ | .feis | .perm | .permIp | .permFp | .permE | .permP | .permPc1
  | .permPc2 | .xor | .cat | .conv _ _ => true

/-- The command has a command word. -/
abbrev Instr.WellFormed (i : Instr) : Prop := i.wf = true

end Sys2Proof
end

