-- ==== Sys2Proof/Decode.lean ====
section
/-! DEFINITION. The command word: decoding by the match/mask table of 30_encoding.md R92 and R97, total on all 64-bit words,
and the encoder of R101 after it. -/

namespace Sys2Proof

/-- Why a word selects no command: the two places where R92 raises IllegalCommand. -/
inductive IllegalWord where
  /-- a bit of `w[63:32]` is set -/
  | highBits
  /-- no row of R97 matches `w[31:0]`: an unused opcode, a reserved bit, or a field the opcode does not use (R98) -/
  | noRow
deriving DecidableEq, Repr

/-- One row of R97: the word `c` belongs to it when `c & mask = pattern` (the table's `match`); `build` reads the fields. -/
structure OpcodeRow where
  pattern : BitVec 32
  mask : BitVec 32
  build : BitVec 32 → Instr

/-- An encoding bit: 0 selects raw and 1 selects hex (R93). -/
def Enc.ofBit (b : Bool) : Enc := if b then .hex else .raw

/-- IENC is bit 8 (R93). -/
def fieldIenc (c : BitVec 32) : Enc := Enc.ofBit (c.getLsbD 8)

/-- OENC is bit 9 (R93). -/
def fieldOenc (c : BitVec 32) : Enc := Enc.ofBit (c.getLsbD 9)

/-- N is bits [21:16], zero-extended (R95). -/
def fieldN (c : BitVec 32) : Nat := (c.extractLsb' 16 6).toNat

/-- G is bits [18:16], zero-extended (R96). -/
def fieldG (c : BitVec 32) : Nat := (c.extractLsb' 16 3).toNat

/-- R97's rows on the opcodes 0x01 to 0x06: the key schedule, the block cipher, the message commands and FEIS. -/
def cipherRows : List OpcodeRow :=
  [⟨0x00000001#32, 0xFFFFFFFF#32, fun _ => .derive⟩,
   ⟨0x00000002#32, 0xFFFFFFFF#32, fun _ => .encb⟩,
   ⟨0x00000003#32, 0xFFFFFFFF#32, fun _ => .decb⟩,
   ⟨0x00000004#32, 0xFFFFFCFF#32, fun c => .encm (fieldIenc c) (fieldOenc c)⟩,
   ⟨0x00000005#32, 0xFFFFFCFF#32, fun c => .decm (fieldIenc c) (fieldOenc c)⟩,
   ⟨0x00000006#32, 0xFFFFFFFF#32, fun _ => .feis⟩]

/-- R97's rows on the opcode 0x07, told apart by TSEL, bits [14:12] (R94). -/
def permRows : List OpcodeRow :=
  [⟨0x00000007#32, 0xFFFFFFFF#32, fun _ => .perm⟩,
   ⟨0x00001007#32, 0xFFFFFFFF#32, fun _ => .permIp⟩,
   ⟨0x00002007#32, 0xFFFFFFFF#32, fun _ => .permFp⟩,
   ⟨0x00003007#32, 0xFFFFFFFF#32, fun _ => .permE⟩,
   ⟨0x00004007#32, 0xFFFFFFFF#32, fun _ => .permP⟩,
   ⟨0x00005007#32, 0xFFFFFFFF#32, fun _ => .permPc1⟩,
   ⟨0x00006007#32, 0xFFFFFFFF#32, fun _ => .permPc2⟩]

/-- R97's rows on the opcodes 0x08 to 0x0C. -/
def utilityRows : List OpcodeRow :=
  [⟨0x00000008#32, 0xFFC0FFFF#32, fun c => .rotl (fieldN c)⟩,
   ⟨0x00000009#32, 0xFFFFFFFF#32, fun _ => .xor⟩,
   ⟨0x0000000A#32, 0xFFFFFFFF#32, fun _ => .cat⟩,
   ⟨0x0000000B#32, 0xFFF8FFFF#32, fun c => .sbox (fieldG c)⟩,
   ⟨0x0000000C#32, 0xFFFFFCFF#32, fun c => .conv (fieldIenc c) (fieldOenc c)⟩]

/-- The 18 rows of R97, in the order of the table. -/
def opcodeTable : List OpcodeRow := cipherRows ++ permRows ++ utilityRows

/-- The word's low half belongs to the row (R92). -/
def OpcodeRow.holds (r : OpcodeRow) (c : BitVec 32) : Bool := (c &&& r.mask) == r.pattern

/-- Decode (R92): the upper half must be 0, and a row must match the lower half. -/
def decode (w : Word) : Except IllegalWord Instr :=
  if w.extractLsb' 32 32 ≠ 0#32 then .error .highBits
  else
    match opcodeTable.find? (fun r => r.holds (w.setWidth 32)) with
    | none => .error .noRow
    | some r => .ok (r.build (w.setWidth 32))

/-- The bit of an encoding field (R93). -/
def Enc.bit : Enc → BitVec 32
  | .raw => 0#32
  | .hex => 1#32

/-- A message command's word: `match | (ie << 8) | (oe << 9)` (R101). -/
def messageWord (pattern : BitVec 32) (ienc oenc : Enc) : BitVec 32 := pattern ||| (ienc.bit <<< 8) ||| (oenc.bit <<< 9)

/-- The low half of a command's word (R97, R101). -/
def encodeLow : Instr → BitVec 32
  | .derive => 0x00000001#32
  | .encb => 0x00000002#32
  | .decb => 0x00000003#32
  | .encm ie oe => messageWord 0x00000004#32 ie oe
  | .decm ie oe => messageWord 0x00000005#32 ie oe
  | .feis => 0x00000006#32
  | .perm => 0x00000007#32
  | .permIp => 0x00001007#32
  | .permFp => 0x00002007#32
  | .permE => 0x00003007#32
  | .permP => 0x00004007#32
  | .permPc1 => 0x00005007#32
  | .permPc2 => 0x00006007#32
  | .rotl n => 0x00000008#32 ||| (BitVec.ofNat 32 n <<< 16)
  | .xor => 0x00000009#32
  | .cat => 0x0000000A#32
  | .sbox g => 0x0000000B#32 ||| (BitVec.ofNat 32 g <<< 16)
  | .conv ie oe => messageWord 0x0000000C#32 ie oe

/-- The 64-bit word the host writes to CMD for a well-formed command: its upper half is 0 (R91). -/
def encode (i : Instr) : Word := (encodeLow i).setWidth 64

/-- The assembler of R101: it refuses a field value out of range and never truncates one. -/
def assemble (i : Instr) : Option Word := if i.wf then some (encode i) else none

/-- What the decoder reads from a word of the opcode table: bits 31..0 of the one word written to CMD, the bits above `nbits` 0. -/
def decodeTableWord (nbits w : Nat) : Option Instr := (decode (BitVec.ofNat 64 (w % 2 ^ nbits))).toOption

end Sys2Proof
end

