-- ==== Sys2Proof/Machine/BitSeq.lean ====
section
/-! DEFINITION. Bit sequences and their operations (00_scope.md R8, R9): position 1 is the most significant bit. A sequence of length
`n` is a `BitVec n`; where the length is only known when a command runs, a `BitSeq` carries it. -/

namespace Sys2Proof.Machine

/-- The bit sequence ⟨len, bits⟩ (R8): the type keeps `bits < 2^len`. -/
structure BitSeq where
  len : Nat
  bits : BitVec len
deriving DecidableEq, Repr

/-- `pos(⟨n, v⟩, p) = v[n - p]` for `1 ≤ p ≤ n` (R8). -/
def pos {n : Nat} (v : BitVec n) (p : Nat) : Bool := v.getLsbD (n - p)

/-- The empty sequence ⟨0, 0⟩ (R8). -/
def BitSeq.empty : BitSeq := ⟨0, 0#0⟩

/-- `⟨n1, v1⟩ ++ ⟨n2, v2⟩ = ⟨n1 + n2, (v1 << n2) | v2⟩` (R9). -/
def BitSeq.append (s t : BitSeq) : BitSeq := ⟨s.len + t.len, s.bits ++ t.bits⟩

/-- `zeros(k) = ⟨k, 0⟩` (R9). -/
def BitSeq.zeros (k : Nat) : BitSeq := ⟨k, 0#k⟩

/-- `first(s, k)`: positions 1 to `k`, `v >> (n - k)` (R9). -/
def firstBits {n : Nat} (k : Nat) (v : BitVec n) : BitVec k := v.extractLsb' (n - k) k

/-- `last(s, k)`: positions `n - k + 1` to `n`, `v mod 2^k` (R9). -/
def lastBits {n : Nat} (k : Nat) (v : BitVec n) : BitVec k := v.setWidth k

/-- `seg(s, j, w)`: the `j`-th group of `w` bits, `(v >> (n - (j+1)*w)) mod 2^w` (R9). -/
def seg {n : Nat} (v : BitVec n) (j w : Nat) : BitVec w := v.extractLsb' (n - (j + 1) * w) w

/-- The concatenation of a list of `w`-bit groups, first group first (R9). -/
def concatGroups {w : Nat} : List (BitVec w) → BitSeq
  | [] => BitSeq.empty
  | x :: xs => BitSeq.append ⟨w, x⟩ (concatGroups xs)

end Sys2Proof.Machine
end

