-- ==== Sys2Proof/Config.lean ====
section
/-! DEFINITION. What an implementation of the DES core fixes: the message capacity MSG_CAP (00_scope.md R6; 92_eei_decisions.md D17). -/

namespace Sys2Proof

/-- A number nothing is known about; `Config.msgCap` is made of it (notes/assumptions/3.md). -/
opaque Config.msgCapSeed : Nat

/-- MSG_CAP, the OPEN parameter of R6: any number from 1 to 2^30 (20_memory.md R64), and nothing in Lean can tell which.
DESIGN CHOICE, safe: notes/assumptions/3.md. -/
def Config.msgCap : Nat := Config.msgCapSeed % 2 ^ 30 + 1

end Sys2Proof
end

