-- ==== Sys2Proof/Machine/State.lean ====
section
/-! DEFINITION. The state the spec gives the DES core (10_state.md R20 to R42, 20_memory.md R60), the host's accesses (30_encoding.md R90),
the errors of a command (60_exceptions.md R300), the ways a step can stop (R318), and the state after reset (R42). -/

namespace Sys2Proof.Machine

/-- The eleven errors of a command (60_exceptions.md R300). An error is an ordinary next state, recorded in STATUS (R303, R318). -/
inductive CmdError where
  | invalidKeyLength
  | invalidBlockLength
  | lengthMismatch
  | encodingOverflow
  | malformedTable
  | invalidRotateAmount
  | invalidHexDigit
  | scheduleIncomplete
  | bufferOverflow
  | illegalCommand
  | uninitializedBuffer
deriving DecidableEq, Repr

/-- The fields of STATUS (10_state.md R24). The reserved bits have no storage and read as 0. -/
structure Status where
  done : Bool
  err : Bool
  errSticky : Bool
  errCode : BitVec 8
  lastOp : BitVec 6
deriving DecidableEq, Repr

/-- An element-indexed buffer (20_memory.md R60): the elements that hold a value, by index. An index that is not listed holds none:
its `written` bit is 0, or it is MOUT no command has written (10_state.md R40, R42; notes/assumptions/6.md). -/
abbrev Memory (w : Nat) := List (Nat × BitVec w)

/-- The host-addressable spaces (20_memory.md R60). -/
inductive Space where
  | reg
  | min
  | mout
deriving DecidableEq, Repr

/-- What the host can do to the core (30_encoding.md R90; 70_reset_and_hazards.md R354). -/
inductive Access where
  /-- `RD s[i]` -/
  | rd (space : Space) (i : Nat)
  /-- `WR s[i], v` -/
  | wr (space : Space) (i : Nat) (v : Word)
  /-- the reset input (R340) -/
  | reset
deriving DecidableEq, Repr

/-- How a step can stop with a fault. -/
inductive Fault where
  /-- Raised by a host read of `MOUT[i]` with `i < MSG_OUT_LEN` when element `i` holds no value. No state that satisfies
  `State.Inv` raises it. Safe: the model gives the unspecified content no value (10_state.md R42; notes/assumptions/7.md). -/
  | moutHoldsNoValue (i : Nat)
deriving DecidableEq, Repr

/-- How a step can be refused: the accesses of 20_memory.md R66, each reported with the access that caused it (60_exceptions.md R318).
All of them are safe: the spec takes no step there either (notes/assumptions/5.md). -/
inductive Refusal where
  /-- Raised by exec for a command that has no meaning yet; no arm answers it. Safe. -/
  | notModelled (mnemonic : String)
  /-- Raised by a read or write of a REG index that holds no register (10_state.md R34). Safe. -/
  | reservedRegister (a : Access)
  /-- Raised by a write to STATUS, Y, Y_LEN, SKW, MSG_OUT_LEN or CAPS (10_state.md R34). Safe. -/
  | readOnlyRegister (a : Access)
  /-- Raised by a host read of a PTAB entry that has not been written since reset (10_state.md R29). Safe. -/
  | unwrittenPtab (a : Access)
  /-- Raised by a host read of a MIN element that has not been written since reset (20_memory.md R62). Safe. -/
  | unwrittenMin (a : Access)
  /-- Raised by a host access to `MIN[i]` with `i ≥ MSG_CAP` (20_memory.md R66). Safe. -/
  | minOutOfRange (a : Access)
  /-- Raised by a host read of `MOUT[i]` with `i ≥ MSG_OUT_LEN` (20_memory.md R63). Safe. -/
  | moutBeyondLength (a : Access)
  /-- Raised by every host write to MOUT (20_memory.md R63). Safe. -/
  | moutWrite (a : Access)
deriving DecidableEq, Repr

/-- The core's state, register by register (10_state.md R20), its buffers (20_memory.md R60), and the host's two fields. -/
structure State where
  /-- CMD: the last word written (10_state.md R25) -/
  cmd : Word
  /-- STATUS (10_state.md R24) -/
  status : Status
  /-- KEY (10_state.md R22) -/
  key : Word
  /-- KEY_LEN -/
  keyLen : BitVec 8
  /-- A, the first operand register (10_state.md R21) -/
  a : Word
  /-- A_LEN -/
  aLen : BitVec 8
  /-- B, the second operand register (10_state.md R21) -/
  b : Word
  /-- B_LEN -/
  bLen : BitVec 8
  /-- Y, the result register (10_state.md R33) -/
  y : Word
  /-- Y_LEN -/
  yLen : BitVec 8
  /-- SKW, bit r-1 for SK[r] (10_state.md R28) -/
  skw : BitVec 16
  /-- SK[1] to SK[16]; SK[r] is entry r-1 (10_state.md R27) -/
  sk : Vector Subkey 16
  /-- PTAB_LEN (10_state.md R29) -/
  ptabLen : BitVec 8
  /-- PTAB[0..63] and their written bits (10_state.md R29, R40) -/
  ptab : Memory 8
  /-- MSG_IN_LEN (10_state.md R30) -/
  msgInLen : BitVec 32
  /-- MSG_OUT_LEN (10_state.md R31) -/
  msgOutLen : BitVec 32
  /-- CAPS: the parameter MSG_CAP (10_state.md R32) -/
  caps : BitVec 32
  /-- MIN and its written bits (20_memory.md R62; 10_state.md R40) -/
  min : Memory 32
  /-- MOUT (20_memory.md R63) -/
  mout : Memory 8
  /-- The host's accesses still to come, first one first: the model's own field (notes/assumptions/1.md) -/
  pending : List Access
  /-- The value the host's last read returned: the model's own field (notes/assumptions/2.md) -/
  readData : Option Word
deriving DecidableEq, Repr

/-- The state after reset (10_state.md R42; 70_reset_and_hazards.md R340): every register 0 but CAPS, every written bit 0, the RAM
contents given no value, and nothing asked of the core yet. -/
def State.reset : State where
  cmd := 0
  status := { done := false, err := false, errSticky := false, errCode := 0, lastOp := 0 }
  key := 0
  keyLen := 0
  a := 0
  aLen := 0
  b := 0
  bLen := 0
  y := 0
  yLen := 0
  skw := 0
  sk := Vector.replicate 16 0
  ptabLen := 0
  ptab := []
  msgInLen := 0
  msgOutLen := 0
  caps := BitVec.ofNat 32 Config.msgCap
  min := []
  mout := []
  pending := []
  readData := none

end Sys2Proof.Machine
end

