-- ==== Sys2Proof/Machine/Flags.lean ====
section
/-! DEFINITION. STATUS: the error codes (60_exceptions.md R300), what a failing and a succeeding command record (R303, R304), and the
word a host reads (10_state.md R24). -/

namespace Sys2Proof.Machine

/-- The error codes of R300. -/
def CmdError.code : CmdError → BitVec 8
  | .invalidKeyLength => 1
  | .invalidBlockLength => 2
  | .lengthMismatch => 3
  | .encodingOverflow => 4
  | .malformedTable => 5
  | .invalidRotateAmount => 6
  | .invalidHexDigit => 7
  | .scheduleIncomplete => 8
  | .bufferOverflow => 9
  | .illegalCommand => 10
  | .uninitializedBuffer => 11

/-- STATUS after a failing command (R303); `op` is bits [5:0] of its word. -/
def Status.recordError (e : CmdError) (op : BitVec 6) : Status :=
  { done := true, err := true, errSticky := true, errCode := e.code, lastOp := op }

/-- STATUS after a succeeding command (R304): ERR_STICKY stays as it was. -/
def Status.recordSuccess (st : Status) (op : BitVec 6) : Status :=
  { done := true, err := false, errSticky := st.errSticky, errCode := 0, lastOp := op }

/-- The STATUS word (10_state.md R24): [63:22] zero, [21:16] LAST_OP, [15:8] ERR_CODE, [7:3] zero, [2] ERR_STICKY, [1] ERR, [0] DONE. -/
def Status.toWord (st : Status) : Word :=
  0#42 ++ st.lastOp ++ st.errCode ++ 0#5 ++ BitVec.ofBool st.errSticky ++ BitVec.ofBool st.err ++ BitVec.ofBool st.done

end Sys2Proof.Machine
end

