-- ==== Sys2Proof/Machine/Ops.lean ====
section
/-! DEFINITION. The named operations: reading and writing a buffer element (00_scope.md R11), the two outcomes of a command
(60_exceptions.md R303, R304), the writes commands make, and reset (70_reset_and_hazards.md R340). -/

namespace Sys2Proof.Machine

/-- The element of a buffer at an index, or none where it holds no value. -/
def Memory.read {w : Nat} : Memory w → Nat → Option (BitVec w)
  | [], _ => none
  | (a, u) :: m, i => if a = i then some u else Memory.read m i

/-- Writes one element, keeping the indices in rising order. -/
def Memory.write {w : Nat} : Memory w → Nat → BitVec w → Memory w
  | [], i, v => [(i, v)]
  | (a, u) :: m, i, v =>
    if i < a then (i, v) :: (a, u) :: m
    else if a = i then (i, v) :: m
    else (a, u) :: Memory.write m i v

/-- Writes the values of a list at successive indices from `i` on. -/
def Memory.writeFrom {w : Nat} (m : Memory w) (i : Nat) : List (BitVec w) → Memory w
  | [] => m
  | v :: vs => Memory.writeFrom (Memory.write m i v) (i + 1) vs

/-- The canonical form: indices strictly rising. An unlisted index has no value, so no entry can equal what it reads as. -/
def Memory.wf {w : Nat} : Memory w → Bool
  | [] => true
  | [_] => true
  | (a, _) :: (b, v) :: m => decide (a < b) && Memory.wf ((b, v) :: m)

/-- The hidden written bit of an element (10_state.md R40). -/
def Memory.written {w : Nat} (m : Memory w) (i : Nat) : Bool := (Memory.read m i).isSome

/-- How a step ends. -/
abbrev Result := Host.Outcome State Fault Refusal

/-- Bits [5:0] of the last word written to CMD, which LAST_OP records (10_state.md R24). -/
def State.lastOpOfCmd (s : State) : BitVec 6 := s.cmd.extractLsb' 0 6

/-- The state after a failing command (60_exceptions.md R303): STATUS records the error, and nothing else changes. -/
def State.failed (s : State) (e : CmdError) : State := { s with status := Status.recordError e s.lastOpOfCmd }

/-- STATUS after a command's own writes, when it completes without error (60_exceptions.md R304). -/
def State.succeeded (s : State) : State := { s with status := s.status.recordSuccess s.lastOpOfCmd }

/-- `raise e`: a command ends with an error (60_exceptions.md R303, R309). The core has no handler and no return from one (R310), so
this is all there is to taking an exception. -/
def raise (e : CmdError) (s : State) : Result := .next (s.failed e)

/-- A command ends without error (60_exceptions.md R304). -/
def succeed (s : State) : Result := .next s.succeeded

/-- The word a host write stores in CMD (10_state.md R25). -/
def State.setCmd (s : State) (w : Word) : State := { s with cmd := w }

/-- The accesses the host has still to make. -/
def State.setPending (s : State) (l : List Access) : State := { s with pending := l }

/-- The value a read returns to the host (70_reset_and_hazards.md R354). -/
def State.setRead (s : State) (v : Word) : State := { s with readData := some v }

/-- A host write of a MIN element stores `v[31:0]` and sets its written bit (20_memory.md R62). -/
def State.setMin (s : State) (i : Nat) (v : Word) : State := { s with min := Memory.write s.min i (v.setWidth 32) }

/-- A command's result ⟨n, v⟩ goes to Y and Y_LEN, zero-extended (10_state.md R33). -/
def State.setY (s : State) (v : BitSeq) : State := { s with y := v.bits.setWidth 64, yLen := BitVec.ofNat 8 v.len }

/-- A message command's output goes to MOUT from element 0 on, and its length to MSG_OUT_LEN (20_memory.md R63). -/
def State.setMout (s : State) (o : List Byte) : State :=
  { s with mout := Memory.writeFrom s.mout 0 o, msgOutLen := BitVec.ofNat 32 o.length }

/-- Ends a command whose result goes to Y: the error its checks raised, or the write of Y (60_exceptions.md R302). -/
def finishY (s : State) : Except CmdError BitSeq → Result
  | .error e => raise e s
  | .ok v => succeed (s.setY v)

/-- Ends a command whose result goes to MOUT (60_exceptions.md R302). -/
def finishMessage (s : State) : Except CmdError (List Byte) → Result
  | .error e => raise e s
  | .ok o => succeed (s.setMout o)

/-- `if c: raise e` of a command's pseudocode (00_scope.md R11). -/
def failIf (c : Bool) (e : CmdError) : Except CmdError Unit := if c then .error e else .ok ()

/-- The reset input (70_reset_and_hazards.md R340): every piece of core state takes its value of 10_state.md R42 at once. CAPS holds the
constant MSG_CAP; what the host has still to do and what it last read are the host's (notes/assumptions/8.md). -/
def State.resetCore (s : State) : State :=
  { State.reset with caps := s.caps, pending := s.pending, readData := s.readData }

end Sys2Proof.Machine
end

