-- ==== Sys2Proof/Machine/Operands.lean ====
section
/-! DEFINITION. The operand forms of the commands: OPND (40_bitseq.md R123), the key (10_state.md R22), the subkey file (10_state.md R27,
R28) and the host permutation table (40_bitseq.md R124). -/

namespace Sys2Proof.Machine

/-- OPND of R123: the first `len` bits of a register, as a sequence; a length above 64 raises InvalidBlockLength. -/
def opnd (v : Word) (len : BitVec 8) : Except CmdError BitSeq :=
  if 64 < len.toNat then .error .invalidBlockLength else .ok ⟨len.toNat, v.setWidth len.toNat⟩

/-- OPND(A) (R123). -/
def opndA (s : State) : Except CmdError BitSeq := opnd s.a s.aLen

/-- OPND(B) (R123). -/
def opndB (s : State) : Except CmdError BitSeq := opnd s.b s.bLen

/-- The key check and the key sequence ⟨64, KEY⟩ (10_state.md R22). -/
def keyOperand (s : State) : Except CmdError Word :=
  if s.keyLen.toNat ≠ 64 then .error .invalidKeyLength else .ok s.key

/-- The subkeys [SK[1], ..., SK[16]] of ENCB and DECB, once all sixteen have been written (10_state.md R28). -/
def scheduleOperand (s : State) : Except CmdError (List Subkey) :=
  if s.skw ≠ 0xFFFF#16 then .error .scheduleIncomplete else .ok s.sk.toList

/-- The scan of PTAB entries `j`, `j+1`, ..., `count` of them, for an input of `n` positions (R124): the first bad entry decides. -/
def scanPtab (ptab : Memory 8) (n : Nat) : (count j : Nat) → Except CmdError (List Nat)
  | 0, _ => .ok []
  | count + 1, j =>
    match ptab.read j with
    | none => .error .uninitializedBuffer
    | some e =>
      if e.toNat = 0 ∨ n < e.toNat then .error .malformedTable
      else (scanPtab ptab n count (j + 1)).map (fun t => e.toNat :: t)

/-- The host permutation table for an input of `n` positions (R124). -/
def tableOperand (s : State) (n : Nat) : Except CmdError (List Nat) :=
  if 64 < s.ptabLen.toNat then .error .malformedTable else scanPtab s.ptab n s.ptabLen.toNat 0

end Sys2Proof.Machine
end

