-- ==== Sys2Proof/Machine/Permutation.lean ====
section
/-! DEFINITION. The bit-sequence engine (40_bitseq.md): PERMUTE and ROTL, and the commands PERM (seven forms), ROTL, XOR and CAT. -/

namespace Sys2Proof.Machine

/-- The sum of R120 over the entries of a table: position `T[j]` of the input becomes bit `m - j`. -/
def permuteValue {n : Nat} (s : BitVec n) : List Nat → Nat
  | [] => 0
  | t :: ts => ((pos s t).toNat <<< ts.length) + permuteValue s ts

/-- PERMUTE(s, T) of R120, where `m` is the number of entries of `T`. -/
def permute {n : Nat} (m : Nat) (s : BitVec n) (T : List Nat) : BitVec m := BitVec.ofNat m (permuteValue s T)

/-- ROTL(s, k) of R121, for `k < n`. -/
def rotl {n : Nat} (s : BitVec n) (k : Nat) : BitVec n := (s <<< k) ||| (s >>> (n - k))

/-- The fixed-table commands of R125 to R130: A must have at least `max` positions, the largest entry of `T`; `m` is the table's size. -/
def permuteA (s : State) (max m : Nat) (T : List Nat) : Except CmdError BitSeq := do
  let a ← opndA s
  failIf (decide (a.len < max)) .malformedTable
  return ⟨m, permute m a.bits T⟩

/-- PERM's result (R124). -/
def permResult (s : State) : Except CmdError BitSeq := do
  let a ← opndA s
  let T ← tableOperand s a.len
  return ⟨T.length, permute T.length a.bits T⟩

/-- ROTL's result (R131). -/
def rotlResult (n : Nat) (s : State) : Except CmdError BitSeq := do
  failIf (decide (64 ≤ n)) .illegalCommand
  let a ← opndA s
  failIf (decide (a.len ≤ n)) .invalidRotateAmount
  return ⟨a.len, rotl a.bits n⟩

/-- XOR's result (R132): the lengths are equal where the two are combined. -/
def xorResult (s : State) : Except CmdError BitSeq := do
  let a ← opndA s
  let b ← opndB s
  failIf (decide (a.len ≠ b.len)) .lengthMismatch
  return ⟨a.len, a.bits ^^^ b.bits.setWidth a.len⟩

/-- CAT's result (R133). -/
def catResult (s : State) : Except CmdError BitSeq := do
  let a ← opndA s
  let b ← opndB s
  failIf (decide (64 < a.len + b.len)) .invalidBlockLength
  return a.append b

/-- PERM (R124). -/
def execPerm (s : State) : Result := finishY s (permResult s)

/-- PERM.IP (R125): max(IP) = 64. -/
def execPermIp (s : State) : Result := finishY s (permuteA s 64 64 tableIP)

/-- PERM.FP (R126): max(FP) = 64. -/
def execPermFp (s : State) : Result := finishY s (permuteA s 64 64 tableFP)

/-- PERM.E (R127): max(E) = 32. -/
def execPermE (s : State) : Result := finishY s (permuteA s 32 48 tableE)

/-- PERM.P (R128): max(P) = 32. -/
def execPermP (s : State) : Result := finishY s (permuteA s 32 32 tableP)

/-- PERM.PC1 (R129): max(PC-1) = 63. -/
def execPermPc1 (s : State) : Result := finishY s (permuteA s 63 56 tablePC1)

/-- PERM.PC2 (R130): max(PC-2) = 56. -/
def execPermPc2 (s : State) : Result := finishY s (permuteA s 56 48 tablePC2)

/-- ROTL (R131). An amount no command word can hold (R95) is answered as R98 answers such a word (notes/assumptions/11.md). -/
def execRotl (n : Nat) (s : State) : Result := finishY s (rotlResult n s)

/-- XOR (R132). -/
def execXor (s : State) : Result := finishY s (xorResult s)

/-- CAT (R133). -/
def execCat (s : State) : Result := finishY s (catResult s)

end Sys2Proof.Machine
end

