-- ==== Sys2Proof/Machine/KeySchedule.lean ====
section
/-! DEFINITION. The key schedule (41_key_schedule.md): KS and the command DERIVE. -/

namespace Sys2Proof.Machine

/-- The rounds of KS (R166): both halves are rotated by the round's amount, on top of the earlier rotations (R164), and PC-2 takes the
subkey from `C ++ D`. -/
def subkeysFrom : List Nat → KeyHalf → KeyHalf → List Subkey
  | [], _, _ => []
  | k :: ks, c, d => permute 48 (rotl c k ++ rotl d k) tablePC2 :: subkeysFrom ks (rotl c k) (rotl d k)

/-- KS(k) of R166: the list [K1, ..., K16]. -/
def keySchedule (key : Word) : List Subkey :=
  subkeysFrom shifts (firstBits 28 (permute 56 key tablePC1)) (lastBits 28 (permute 56 key tablePC1))

theorem subkeysFrom_length (ks : List Nat) (c d : KeyHalf) : (subkeysFrom ks c d).length = ks.length := by
  induction ks generalizing c d with
  | nil => rfl
  | cons k ks ih => simp [subkeysFrom, ih]

theorem keySchedule_length (key : Word) : (keySchedule key).length = 16 := subkeysFrom_length _ _ _

/-- KS(k) as the contents of the subkey file: K_r at entry r-1. -/
def keyScheduleFile (key : Word) : Vector Subkey 16 := ⟨⟨keySchedule key⟩, keySchedule_length key⟩

/-- All sixteen subkeys and their written bits are set (R168). -/
def State.setSchedule (s : State) (key : Word) : State := { s with sk := keyScheduleFile key, skw := 0xFFFF }

/-- DERIVE (R168). -/
def execDerive (s : State) : Result :=
  match keyOperand s with
  | .error e => raise e s
  | .ok key => succeed (s.setSchedule key)

end Sys2Proof.Machine
end

