-- ==== Sys2Proof/Machine/Round.lean ====
section
/-! DEFINITION. The round function (42_round_function.md): SUBST, the substitution layer, F, and the commands SBOX and FEIS. -/

namespace Sys2Proof.Machine

/-- The S-box row of a 6-bit group: its outer bits (R200). -/
def sboxRow (x : BitVec 6) : Nat := (pos x 1).toNat * 2 + (pos x 6).toNat

/-- The S-box column of a 6-bit group: its inner four bits (R200). -/
def sboxCol (x : BitVec 6) : Nat := (pos x 2).toNat * 8 + (pos x 3).toNat * 4 + (pos x 4).toNat * 2 + (pos x 5).toNat

/-- SUBST(g, x) of R200, for `g` in 0..7: `S[g][row][col]`, which is never outside the grid (R205). -/
def subst (g : Nat) (x : BitVec 6) : BitVec 4 :=
  BitVec.ofNat 4 (((sboxes.getD g []).getD (sboxRow x) []).getD (sboxCol x) 0)

/-- SLAYER(x) of R201: group `g`, positions 6g+1 to 6g+6, goes to box `S[g]`. -/
def slayer (x : BitVec 48) : BitVec 32 :=
  subst 0 (seg x 0 6) ++ subst 1 (seg x 1 6) ++ subst 2 (seg x 2 6) ++ subst 3 (seg x 3 6) ++
  subst 4 (seg x 4 6) ++ subst 5 (seg x 5 6) ++ subst 6 (seg x 6 6) ++ subst 7 (seg x 7 6)

/-- F(r, k) of R202. -/
def feistel (r : Half) (k : Subkey) : Half := permute 32 (slayer (permute 48 r tableE ^^^ k)) tableP

/-- SBOX's result (R203). -/
def sboxResult (g : Nat) (s : State) : Except CmdError BitSeq := do
  failIf (decide (8 ≤ g)) .illegalCommand
  let a ← opndA s
  failIf (decide (a.len ≠ 6)) .invalidBlockLength
  return ⟨4, subst g (a.bits.setWidth 6)⟩

/-- FEIS's result (R204): both operands are read before either length is compared. -/
def feisResult (s : State) : Except CmdError BitSeq := do
  let a ← opndA s
  let b ← opndB s
  failIf (decide (a.len ≠ 32)) .invalidBlockLength
  failIf (decide (b.len ≠ 48)) .invalidBlockLength
  return ⟨32, feistel (a.bits.setWidth 32) (b.bits.setWidth 48)⟩

/-- SBOX (R203). An index no command word can hold (R96) is answered as R98 answers such a word (notes/assumptions/11.md). -/
def execSbox (g : Nat) (s : State) : Result := finishY s (sboxResult g s)

/-- FEIS (R204). -/
def execFeis (s : State) : Result := finishY s (feisResult s)

end Sys2Proof.Machine
end

