-- ==== Sys2Proof/Machine/Block.lean ====
section
/-! DEFINITION. The block cipher (43_block_cipher.md): DESBLOCK, ENC and DEC, and the commands ENCB and DECB. -/

namespace Sys2Proof.Machine

/-- Step 2 of R223: one round a subkey, both updates from the values of the round before. -/
def desRounds : List Subkey → Half → Half → Half × Half
  | [], l, r => (l, r)
  | k :: ks, l, r => desRounds ks r (l ^^^ feistel r k)

/-- Steps 3 and 4 of R223: Right_16 before Left_16, then the Final Permutation. -/
def swapAndFinish (lr : Half × Half) : Word := permute 64 (lr.2 ++ lr.1) tableFP

/-- DESBLOCK(b, ks) of R223, the subkeys in the order they are applied. -/
def desBlock (b : Word) (ks : List Subkey) : Word :=
  swapAndFinish (desRounds ks (firstBits 32 (permute 64 b tableIP)) (lastBits 32 (permute 64 b tableIP)))

/-- ENC(b, ks) of R224. -/
def encBlock (b : Word) (ks : List Subkey) : Word := desBlock b ks

/-- DEC(b, ks) of R225. -/
def decBlock (b : Word) (ks : List Subkey) : Word := desBlock b ks.reverse

/-- The result of ENCB and DECB for a block function (R226, R227). -/
def blockResult (f : Word → List Subkey → Word) (s : State) : Except CmdError BitSeq := do
  let a ← opndA s
  failIf (decide (a.len ≠ 64)) .invalidBlockLength
  let ks ← scheduleOperand s
  return ⟨64, f (a.bits.setWidth 64) ks⟩

/-- ENCB (R226). -/
def execEncb (s : State) : Result := finishY s (blockResult encBlock s)

/-- DECB (R227). -/
def execDecb (s : State) : Result := finishY s (blockResult decBlock s)

end Sys2Proof.Machine
end

