-- ==== Sys2Proof/Machine/Framer.lean ====
section
/-! DEFINITION. The message framer and hex codec (44_message_framer.md), and the commands ENCM, DECM and CONV. -/

namespace Sys2Proof.Machine

/-- HEXVAL(u) of R251. -/
def hexVal (u : CodeUnit) : Option (BitVec 4) :=
  if 0x30 ≤ u.toNat ∧ u.toNat ≤ 0x39 then some (BitVec.ofNat 4 (u.toNat - 0x30))
  else if 0x41 ≤ u.toNat ∧ u.toNat ≤ 0x46 then some (BitVec.ofNat 4 (u.toNat - 0x41 + 10))
  else if 0x61 ≤ u.toNat ∧ u.toNat ≤ 0x66 then some (BitVec.ofNat 4 (u.toNat - 0x61 + 10))
  else none

/-- HEXCHAR(d) of R251: always upper case. -/
def hexChar (d : BitVec 4) : Byte :=
  if d.toNat ≤ 9 then BitVec.ofNat 8 (0x30 + d.toNat) else BitVec.ofNat 8 (0x41 + d.toNat - 10)

/-- One code unit of the input as bits: R252 for raw, R253 for hex. -/
def unitBits (e : Enc) (u : CodeUnit) : Except CmdError BitSeq :=
  match e with
  | .raw => if 255 < u.toNat then .error .encodingOverflow else .ok ⟨8, u.setWidth 8⟩
  | .hex =>
    match hexVal u with
    | none => .error .invalidHexDigit
    | some d => .ok ⟨4, d⟩

/-- The loop of DECODE (R254): `count` elements from index `i` on, appended to what is read so far; the first failing element decides. -/
def decodeFrom (m : Memory 32) (e : Enc) : (count i : Nat) → BitSeq → Except CmdError BitSeq
  | 0, _, acc => .ok acc
  | count + 1, i, acc =>
    match m.read i with
    | none => .error .uninitializedBuffer
    | some u =>
      match unitBits e u with
      | .error err => .error err
      | .ok x => decodeFrom m e count (i + 1) (acc.append x)

/-- DECODE(ienc) of R254. -/
def decodeMessage (s : State) (e : Enc) : Except CmdError BitSeq := do
  failIf (decide (s.caps.toNat < s.msgInLen.toNat)) .bufferOverflow
  decodeFrom s.min e s.msgInLen.toNat 0 BitSeq.empty

/-- The number `(-n) mod w` of padding bits (R255 to R257). -/
def padBits (n w : Nat) : Nat := (w - n % w) % w

/-- `zeros(p) ++ s` with `p = (-len) mod w` (R255, R256). -/
def padLeft (w : Nat) (s : BitSeq) : BitSeq := (BitSeq.zeros (padBits s.len w)).append s

/-- `s ++ zeros(p)` with `p = (-len) mod w` (R257). -/
def padRight (w : Nat) (s : BitSeq) : BitSeq := s.append (BitSeq.zeros (padBits s.len w))

/-- The consecutive `w`-bit groups of a sequence, `seg(s, 0, w)` first (00_scope.md R9). -/
def groups (w : Nat) (s : BitSeq) : List (BitVec w) := (List.range (s.len / w)).map (fun j => seg s.bits j w)

/-- ENCODE(s, oenc): R255 for hex, R256 for raw. -/
def encodeMessage (e : Enc) (s : BitSeq) : List Byte :=
  match e with
  | .hex => (groups 4 (padLeft 4 s)).map hexChar
  | .raw => groups 8 (padLeft 8 s)

/-- FRAME(s) of R257. -/
def frame (s : BitSeq) : List Word := groups 64 (padRight 64 s)

/-- The block transform of R258: each block on its own, results in the original order. -/
def transformBlocks (f : Word → List Subkey → Word) (ks : List Subkey) (bs : List Word) : BitSeq :=
  concatGroups (bs.map (fun b => f b ks))

/-- The output of ENCM and DECM for a block function (R259, R260): the whole input is read before the key is checked, and the
subkeys are derived once, apart from the subkey file (R265). -/
def cipherMessage (f : Word → List Subkey → Word) (ienc oenc : Enc) (s : State) : Except CmdError (List Byte) := do
  let m ← decodeMessage s ienc
  let key ← keyOperand s
  return encodeMessage oenc (transformBlocks f (keySchedule key) (frame m))

/-- CONV's output (R261): no cipher, no framing. -/
def convMessage (ienc oenc : Enc) (s : State) : Except CmdError (List Byte) := do
  let m ← decodeMessage s ienc
  return encodeMessage oenc m

/-- ENCM (R259). -/
def execEncm (ienc oenc : Enc) (s : State) : Result := finishMessage s (cipherMessage encBlock ienc oenc s)

/-- DECM (R260). -/
def execDecm (ienc oenc : Enc) (s : State) : Result := finishMessage s (cipherMessage decBlock ienc oenc s)

/-- CONV (R261). -/
def execConv (ienc oenc : Enc) (s : State) : Result := finishMessage s (convMessage ienc oenc s)

end Sys2Proof.Machine
end

