-- ==== Sys2Proof/Machine/Dispatch.lean ====
section
/-! DEFINITION. The dispatch from a command to its meaning, one arm a command (30_encoding.md R97). -/

namespace Sys2Proof.Machine

def exec (i : Instr) (s : State) : Host.Outcome State Fault Refusal :=
  match i with
  | .derive => Sys2Proof.Machine.execDerive s
  | .encb => Sys2Proof.Machine.execEncb s
  | .decb => Sys2Proof.Machine.execDecb s
  | .encm ienc oenc => Sys2Proof.Machine.execEncm ienc oenc s
  | .decm ienc oenc => Sys2Proof.Machine.execDecm ienc oenc s
  | .feis => Sys2Proof.Machine.execFeis s
  | .perm => Sys2Proof.Machine.execPerm s
  | .permIp => Sys2Proof.Machine.execPermIp s
  | .permFp => Sys2Proof.Machine.execPermFp s
  | .permE => Sys2Proof.Machine.execPermE s
  | .permP => Sys2Proof.Machine.execPermP s
  | .permPc1 => Sys2Proof.Machine.execPermPc1 s
  | .permPc2 => Sys2Proof.Machine.execPermPc2 s
  | .rotl n => Sys2Proof.Machine.execRotl n s
  | .xor => Sys2Proof.Machine.execXor s
  | .cat => Sys2Proof.Machine.execCat s
  | .sbox g => Sys2Proof.Machine.execSbox g s
  | .conv ienc oenc => Sys2Proof.Machine.execConv ienc oenc s

end Sys2Proof.Machine
end

