-- ==== Sys2Proof/Machine/Registers.lean ====
section
/-! DEFINITION. The register map (10_state.md R20): which register an index holds, what a host read returns (R24 to R33) and what a
host write stores (R26). -/

namespace Sys2Proof.Machine

/-- The registers of the REG space (R20). `sk r` is SK[r+1]; `ptab j` is PTAB[j]. -/
inductive Reg where
  | cmd | status | key | keyLen | a | aLen | b | bLen | y | yLen | skw | ptabLen | msgInLen | msgOutLen | caps
  | sk (r : Fin 16)
  | ptab (j : Fin 64)
deriving DecidableEq, Repr

/-- The register at an index; none at a reserved index, 0x0F and 0x60 to 0xFF (R34), or beyond the 256 indices of REG. -/
def Reg.ofIndex (i : Nat) : Option Reg :=
  if i = 0x00 then some .cmd
  else if i = 0x01 then some .status
  else if i = 0x02 then some .key
  else if i = 0x03 then some .keyLen
  else if i = 0x04 then some .a
  else if i = 0x05 then some .aLen
  else if i = 0x06 then some .b
  else if i = 0x07 then some .bLen
  else if i = 0x08 then some .y
  else if i = 0x09 then some .yLen
  else if i = 0x0A then some .skw
  else if i = 0x0B then some .ptabLen
  else if i = 0x0C then some .msgInLen
  else if i = 0x0D then some .msgOutLen
  else if i = 0x0E then some .caps
  else if h : 0x10 ≤ i ∧ i ≤ 0x1F then some (.sk ⟨i - 0x10, by omega⟩)
  else if h : 0x20 ≤ i ∧ i ≤ 0x5F then some (.ptab ⟨i - 0x20, by omega⟩)
  else none

/-- The index of a register (R20). -/
def Reg.index : Reg → Nat
  | .cmd => 0x00
  | .status => 0x01
  | .key => 0x02
  | .keyLen => 0x03
  | .a => 0x04
  | .aLen => 0x05
  | .b => 0x06
  | .bLen => 0x07
  | .y => 0x08
  | .yLen => 0x09
  | .skw => 0x0A
  | .ptabLen => 0x0B
  | .msgInLen => 0x0C
  | .msgOutLen => 0x0D
  | .caps => 0x0E
  | .sk r => 0x10 + r
  | .ptab j => 0x20 + j

/-- What a host read of a register returns, zero-extended (R26); none for a PTAB entry that has not been written (R29). -/
def State.readReg (s : State) : Reg → Option Word
  | .cmd => some s.cmd
  | .status => some s.status.toWord
  | .key => some s.key
  | .keyLen => some (s.keyLen.setWidth 64)
  | .a => some s.a
  | .aLen => some (s.aLen.setWidth 64)
  | .b => some s.b
  | .bLen => some (s.bLen.setWidth 64)
  | .y => some s.y
  | .yLen => some (s.yLen.setWidth 64)
  | .skw => some (s.skw.setWidth 64)
  | .ptabLen => some (s.ptabLen.setWidth 64)
  | .msgInLen => some (s.msgInLen.setWidth 64)
  | .msgOutLen => some (s.msgOutLen.setWidth 64)
  | .caps => some (s.caps.setWidth 64)
  | .sk r => some (s.sk[r].setWidth 64)
  | .ptab j => (s.ptab.read j).map (fun e => e.setWidth 64)

/-- A host write of a subkey stores bits [47:0] and sets its bit of SKW (R26, R27, R28). -/
def State.writeSk (s : State) (r : Fin 16) (v : Word) : State :=
  { s with sk := s.sk.set r (v.setWidth 48), skw := s.skw ||| (1#16 <<< r.val) }

/-- A host write of a PTAB entry stores bits [7:0] and sets its written bit (R26, R29, R40). -/
def State.writePtab (s : State) (j : Fin 64) (v : Word) : State := { s with ptab := s.ptab.write j (v.setWidth 8) }

/-- What a host write stores in a data register, its low bits (R26). None for CMD, whose write is a command (R25), and for the
read-only registers (R34). -/
def State.writeReg (s : State) (r : Reg) (v : Word) : Option State :=
  match r with
  | .key => some { s with key := v }
  | .keyLen => some { s with keyLen := v.setWidth 8 }
  | .a => some { s with a := v }
  | .aLen => some { s with aLen := v.setWidth 8 }
  | .b => some { s with b := v }
  | .bLen => some { s with bLen := v.setWidth 8 }
  | .ptabLen => some { s with ptabLen := v.setWidth 8 }
  | .msgInLen => some { s with msgInLen := v.setWidth 32 }
  | .sk r => some (s.writeSk r v)
  | .ptab j => some (s.writePtab j v)
  | .cmd | .status | .y | .yLen | .skw | .msgOutLen | .caps => none

end Sys2Proof.Machine
end

