-- ==== Sys2Proof/Machine/Port.lean ====
section
/-! DEFINITION. What the core does for each host access (30_encoding.md R90; 70_reset_and_hazards.md R354): reads, writes, the command
that a CMD write runs (60_exceptions.md R302), reset, and the accesses that are refused (20_memory.md R66). -/

namespace Sys2Proof.Machine

/-- A read returns its value to the host and changes nothing in the core (20_memory.md R70). -/
def State.returnRead (s : State) (v : Word) : Result := .next (s.setRead v)

/-- A host write of `w` to CMD (10_state.md R25; 60_exceptions.md R302): store, decode, run, in one step. A word that selects no command
raises IllegalCommand (30_encoding.md R92). -/
def runCommand (w : Word) (s : State) : Result :=
  match decode w with
  | .error _ => raise .illegalCommand (s.setCmd w)
  | .ok i => exec i (s.setCmd w)

/-- `RD REG[i]` (20_memory.md R61). -/
def readRegister (i : Nat) (s : State) : Result :=
  match Reg.ofIndex i with
  | none => .refused (.reservedRegister (.rd .reg i))
  | some r =>
    match s.readReg r with
    | none => .refused (.unwrittenPtab (.rd .reg i))
    | some v => s.returnRead v

/-- `WR REG[i], v` (20_memory.md R61). -/
def writeRegister (i : Nat) (v : Word) (s : State) : Result :=
  match Reg.ofIndex i with
  | none => .refused (.reservedRegister (.wr .reg i v))
  | some .cmd => runCommand v s
  | some r =>
    match s.writeReg r v with
    | none => .refused (.readOnlyRegister (.wr .reg i v))
    | some t => .next t

/-- `RD MIN[i]` (20_memory.md R62). -/
def readMin (i : Nat) (s : State) : Result :=
  if s.caps.toNat ≤ i then .refused (.minOutOfRange (.rd .min i))
  else
    match s.min.read i with
    | none => .refused (.unwrittenMin (.rd .min i))
    | some u => s.returnRead (u.setWidth 64)

/-- `WR MIN[i], v`: stores `v[31:0]` and sets the written bit (20_memory.md R62). -/
def writeMin (i : Nat) (v : Word) (s : State) : Result :=
  if s.caps.toNat ≤ i then .refused (.minOutOfRange (.wr .min i v))
  else .next (s.setMin i v)

/-- `RD MOUT[i]` (20_memory.md R63). -/
def readMout (i : Nat) (s : State) : Result :=
  if s.msgOutLen.toNat ≤ i then .refused (.moutBeyondLength (.rd .mout i))
  else
    match s.mout.read i with
    | none => .fault (.moutHoldsNoValue i)
    | some x => s.returnRead (x.setWidth 64)

/-- One host access (70_reset_and_hazards.md R354). -/
def perform (a : Access) (s : State) : Result :=
  match a with
  | .rd .reg i => readRegister i s
  | .rd .min i => readMin i s
  | .rd .mout i => readMout i s
  | .wr .reg i v => writeRegister i v s
  | .wr .min i v => writeMin i v s
  | .wr .mout i v => .refused (.moutWrite (.wr .mout i v))
  | .reset => .next s.resetCore

/-- The host's next move: its first pending access, which is then no longer pending. With none pending the host asks nothing of the core,
and the core changes nothing (60_exceptions.md R317; notes/assumptions/4.md). -/
def nextAccess (s : State) : Result :=
  match s.pending with
  | [] => .next s
  | a :: rest => perform a (s.setPending rest)

/-- The state in which the host's next access writes the word `w` to CMD (30_encoding.md R90). -/
def State.withCommand (s : State) (w : Word) : State := s.setPending (.wr .reg Reg.cmd.index w :: s.pending)

end Sys2Proof.Machine
end

