-- ==== Sys2Proof/Machine/Step.lean ====
section
/-! DEFINITION. One step of the machine is one host access (60_exceptions.md R302; 70_reset_and_hazards.md R352). -/

namespace Sys2Proof.Machine

/-- One step: the host's next access, performed by the core. -/
def step (s : State) : Host.Outcome State Fault Refusal := nextAccess s

/-- The state whose next step is the CMD write of the opcode table's word (bits 31..0 of the one word; the bits above `nbits` are 0). -/
def State.withFetchWord (s : State) (nbits w : Nat) : State := s.withCommand (BitVec.ofNat 64 (w % 2 ^ nbits))

end Sys2Proof.Machine
end

