-- ==== Sys2Proof/Machine/Assembler.lean ====
section
/-! DEFINITION. The assembler lines of host programs and what they expand to (30_encoding.md R101 to R103). -/

namespace Sys2Proof.Machine

/-- `WR <reg>, v` (R101). -/
def wrReg (r : Reg) (v : Word) : Access := .wr .reg r.index v

/-- `RD <reg>` (R101). -/
def rdReg (r : Reg) : Access := .rd .reg r.index

/-- `LDKEY k` (R102). -/
def ldKey (k : Word) : List Access := [wrReg .key k, wrReg .keyLen 64]

/-- `LDA v, n` (R102). -/
def ldA (v n : Word) : List Access := [wrReg .a v, wrReg .aLen n]

/-- `LDB v, n` (R102). -/
def ldB (v n : Word) : List Access := [wrReg .b v, wrReg .bLen n]

/-- The MIN writes of `LDMSG`, the element index rising from `i`. -/
def minWrites (i : Nat) : List Word → List Access
  | [] => []
  | c :: cs => .wr .min i c :: minWrites (i + 1) cs

/-- `LDMSG "s"`, the message given by the code points of its characters (R102). -/
def ldMsg (codes : List Word) : List Access := minWrites 0 codes ++ [wrReg .msgInLen (BitVec.ofNat 64 codes.length)]

/-- The PTAB writes of `LDTAB`, the entry index rising from `j`; entry `j` is at REG index 0x20 + j (10_state.md R20). -/
def ptabWrites (j : Nat) : List Word → List Access
  | [] => []
  | t :: ts => .wr .reg (0x20 + j) t :: ptabWrites (j + 1) ts

/-- `LDTAB t1, ..., tm`, for m ≤ 64 (R102): the assembler refuses more entries. -/
def ldTab (ts : List Word) : Option (List Access) :=
  if ts.length ≤ 64 then some (ptabWrites 0 ts ++ [wrReg .ptabLen (BitVec.ofNat 64 ts.length)]) else none

/-- `MOVYA` (R102): the host reads Y and Y_LEN and writes what it read to A. The values are those of the state in which the line is
reached (notes/assumptions/15.md). -/
def movYA (s : State) : List Access := [rdReg .y, rdReg .yLen] ++ ldA s.y (s.yLen.setWidth 64)

/-- `MOVYB` (R102): as MOVYA, into B. -/
def movYB (s : State) : List Access := [rdReg .y, rdReg .yLen] ++ ldB s.y (s.yLen.setWidth 64)

/-- `CHECK` (R102): a read of STATUS; that the program expects ERR = 0 is an assertion on the host's side. -/
def check : List Access := [rdReg .status]

/-- What CHECK expects (R102). -/
def State.checkHolds (s : State) : Bool := !s.status.err

/-- `CMD <mnemonic>` with its operands (R101): a CMD write; the assembler refuses a field value out of range. -/
def cmdLine (i : Instr) : Option Access := (assemble i).map (wrReg .cmd)

end Sys2Proof.Machine
end

