-- ==== Sys2Proof/Safety.lean ====
section
/-! DEFINITION. The states the machine can be in, as an invariant, which registers a command may write, and what counts as a safe run (60_exceptions.md R305, R318). -/

namespace Sys2Proof.Machine

/-- The three buffers are in canonical form and stay in their spaces (20_memory.md R60; 10_state.md R29). -/
structure State.BuffersOk (s : State) : Prop where
  ptab_wf : s.ptab.wf = true
  min_wf : s.min.wf = true
  mout_wf : s.mout.wf = true
  ptab_range : ∀ j, s.ptab.written j = true → j < 64
  min_range : ∀ i, s.min.written i = true → i < s.caps.toNat
  mout_range : ∀ i, s.mout.written i = true → i < 2 * s.caps.toNat + 16

/-- CAPS holds a legal MSG_CAP, and MSG_OUT_LEN counts elements that MOUT has and that hold a value (20_memory.md R63, R64). -/
structure State.MessageOk (s : State) : Prop where
  caps_pos : 1 ≤ s.caps.toNat
  caps_le : s.caps.toNat ≤ 2 ^ 30
  mout_len : s.msgOutLen.toNat ≤ 2 * s.caps.toNat + 16
  mout_value : ∀ i, i < s.msgOutLen.toNat → s.mout.written i = true

/-- Y_LEN is at most 64 and the bits of Y above it are 0 (10_state.md R33). -/
structure State.ResultOk (s : State) : Prop where
  len : s.yLen.toNat ≤ 64
  bits : s.y.toNat < 2 ^ s.yLen.toNat

/-- What the fields of STATUS say together (10_state.md R24; 60_exceptions.md R300, R303, R304). -/
structure State.StatusOk (s : State) : Prop where
  code_le : s.status.errCode.toNat ≤ 11
  err_iff : s.status.err = true ↔ s.status.errCode ≠ 0
  sticky : s.status.err = true → s.status.errSticky = true
  done : s.status.errSticky = true → s.status.done = true
  last_op : s.status.lastOp = s.cmd.extractLsb' 0 6
  fresh : s.status.done = false → s.cmd = 0

/-- A subkey whose SKW bit is clear has its reset value (10_state.md R28, R42). -/
def State.ScheduleOk (s : State) : Prop := ∀ r : Fin 16, s.skw.getLsbD r = false → s.sk[r] = 0

/-- The invariant: it holds after reset and every step keeps it. -/
structure State.Inv (s : State) : Prop where
  buffers : s.BuffersOk
  message : s.MessageOk
  result : s.ResultOk
  status : s.StatusOk
  schedule : s.ScheduleOk

/-- The commands whose result goes to Y (10_state.md R33). -/
def writesY : Instr → Bool
  | .derive | .encm _ _ | .decm _ _ | .conv _ _ => false
  | .encb | .decb | .feis | .perm | .permIp | .permFp | .permE | .permP | .permPc1 | .permPc2 | .rotl _ | .xor | .cat
  | .sbox _ => true

/-- The commands whose result goes to MOUT (20_memory.md R63). -/
def writesMout : Instr → Bool
  | .encm _ _ | .decm _ _ | .conv _ _ => true
  | .derive | .encb | .decb | .feis | .perm | .permIp | .permFp | .permE | .permP | .permPc1 | .permPc2 | .rotl _ | .xor | .cat
  | .sbox _ => false

/-- No command has failed since reset (60_exceptions.md R305). -/
abbrev State.NoCommandFailed (s : State) : Prop := s.status.errSticky = false

/-- A step that the core takes: neither refused nor faulted (60_exceptions.md R318). -/
def Result.taken : Result → Bool
  | .next _ => true
  | .fault _ => false
  | .refused _ => false

end Sys2Proof.Machine
end

