-- ==== Sys2Proof/Certificates/Slice0/Obligations.lean ====
section
/-! DEFINITION. The statements about the DES core, each formalising or derived from the spec's rules, and the words they use. -/

namespace Sys2Proof.Claims

open Sys2Proof.Machine

/-- STATUS after a success, from the state before the command (60_exceptions.md R304). -/
def okStatus (s : State) : Status :=
  { done := true, err := false, errSticky := s.status.errSticky, errCode := 0, lastOp := s.cmd.extractLsb' 0 6 }

/-- STATUS after an error with a code of R300 (60_exceptions.md R303). -/
def errStatus (s : State) (code : Nat) : Status :=
  { done := true, err := true, errSticky := true, errCode := BitVec.ofNat 8 code, lastOp := s.cmd.extractLsb' 0 6 }

/-- The command succeeds with the result ⟨n, v⟩ in Y, and nothing changes but Y, Y_LEN and STATUS. -/
def AnswersY (i : Instr) (s : State) (n : Nat) (v : BitVec n) : Prop :=
  exec i s = .next { s with y := v.setWidth 64, yLen := BitVec.ofNat 8 n, status := okStatus s }

/-- The command fails with an error code, and nothing changes but STATUS. -/
def AnswersError (i : Instr) (s : State) (code : Nat) : Prop := exec i s = .next { s with status := errStatus s code }

/-- The command succeeds with the output `o`: element `j` of MOUT is `o[j]`, every other element is as before, MSG_OUT_LEN counts the
output, and nothing changes but MOUT, MSG_OUT_LEN and STATUS. -/
def AnswersMessage (i : Instr) (s : State) (o : List Byte) : Prop :=
  ∃ m : Memory 8,
    exec i s = .next { s with mout := m, msgOutLen := BitVec.ofNat 32 o.length, status := okStatus s } ∧
    ∀ j, m.read j = if j < o.length then o[j]? else s.mout.read j

/-- seq(A) (10_state.md R21). -/
def seqA (s : State) : BitVec s.aLen.toNat := s.a.setWidth s.aLen.toNat

/-- seq(B) (10_state.md R21). -/
def seqB (s : State) : BitVec s.bLen.toNat := s.b.setWidth s.bLen.toNat

/-- `S[g][row][col]` (00_scope.md R10). -/
def sboxEntry (g row col : Nat) : Nat := ((sboxes.getD g []).getD row []).getD col 0

/-- The six fixed-table commands, with the command word, the largest entry and the table of each (40_bitseq.md R125 to R130). -/
def fixedPermutations : List (Instr × Word × Nat × List Nat) :=
  [(.permIp, 0x00001007, 64, tableIP), (.permFp, 0x00002007, 64, tableFP), (.permE, 0x00003007, 32, tableE),
   (.permP, 0x00004007, 32, tableP), (.permPc1, 0x00005007, 63, tablePC1), (.permPc2, 0x00006007, 56, tablePC2)]

/-- A code unit that DECODE accepts (44_message_framer.md R252, R253). -/
def unitOk : Enc → CodeUnit → Bool
  | .raw, u => decide (u.toNat ≤ 255)
  | .hex, u => (hexVal u).isSome

/-- The input message is `us`: MSG_IN_LEN counts it, it is no longer than MSG_CAP, and its elements are written (44_message_framer.md R254). -/
def InputIs (s : State) (us : List CodeUnit) : Prop :=
  us.length = s.msgInLen.toNat ∧ us.length ≤ s.caps.toNat ∧ ∀ (j : Nat) (h : j < us.length), s.min.read j = some us[j]

/-- The bits of a message: 8 a character for raw, 4 a digit for hex, element 0 first (44_message_framer.md R252 to R254). -/
def messageBits : Enc → List CodeUnit → BitSeq
  | .raw, us => concatGroups (us.map (fun u => u.setWidth 8))
  | .hex, us => concatGroups (us.map (fun u => (hexVal u).getD 0))

/-- The first `j` elements of the input are written and acceptable (44_message_framer.md R254). -/
def GoodBefore (e : Enc) (s : State) (j : Nat) : Prop := ∀ k, k < j → ∃ u, s.min.read k = some u ∧ unitOk e u = true

/-- The code of the encoding error of an input form (60_exceptions.md R300): EncodingOverflow or InvalidHexDigit. -/
def encodingErrorCode : Enc → Nat
  | .raw => 4
  | .hex => 7

/-- The opcode field, bits [5:0] (30_encoding.md R91). -/
def opField (w : Word) : Nat := (w.extractLsb' 0 6).toNat

/-- The words of 30_encoding.md R98, bullet by bullet. -/
def IllegalShape (w : Word) : Prop :=
  opField w = 0 ∨ 0x0D ≤ opField w ∨
  (w.extractLsb' 6 2 ≠ 0 ∨ w.extractLsb' 10 2 ≠ 0 ∨ w.extractLsb' 15 1 ≠ 0 ∨ w.extractLsb' 22 10 ≠ 0) ∨
  (w.extractLsb' 8 2 ≠ 0 ∧ opField w ≠ 4 ∧ opField w ≠ 5 ∧ opField w ≠ 0x0C) ∨
  (w.extractLsb' 12 3 ≠ 0 ∧ opField w ≠ 7) ∨
  (w.extractLsb' 16 6 ≠ 0 ∧ opField w ≠ 8 ∧ opField w ≠ 0x0B) ∨
  (w.extractLsb' 12 3 = 7 ∧ opField w = 7) ∨
  (w.extractLsb' 19 3 ≠ 0 ∧ opField w = 0x0B) ∨
  w.extractLsb' 32 32 ≠ 0

/-- The width of a register the host can write, CMD apart (10_state.md R20, R26). -/
def writableWidth : Reg → Option Nat
  | .key | .a | .b => some 64
  | .keyLen | .aLen | .bLen | .ptabLen | .ptab _ => some 8
  | .msgInLen => some 32
  | .sk _ => some 48
  | .cmd | .status | .y | .yLen | .skw | .msgOutLen | .caps => none

/-- A host read of REG index `i` returns `v` and changes nothing in the core (10_state.md R20). -/
def ReadsReg (s : State) (i : Nat) (v : Word) : Prop := perform (.rd .reg i) s = .next { s with readData := some v }

/-- A host write of `v` to REG index `i` ends in the state `t` (10_state.md R20). -/
def WritesReg (s : State) (i : Nat) (v : Word) (t : State) : Prop := perform (.wr .reg i v) s = .next t

/-- What a host read of each index of 10_state.md R20 returns, zero-extended: SK[r] is at 0x0F + r, PTAB[j] at 0x20 + j. -/
def ReadsTheMap (s : State) : Prop :=
  ReadsReg s 0x00 s.cmd ∧ ReadsReg s 0x01 s.status.toWord ∧ ReadsReg s 0x02 s.key ∧ ReadsReg s 0x03 (s.keyLen.setWidth 64) ∧
  ReadsReg s 0x04 s.a ∧ ReadsReg s 0x05 (s.aLen.setWidth 64) ∧ ReadsReg s 0x06 s.b ∧ ReadsReg s 0x07 (s.bLen.setWidth 64) ∧
  ReadsReg s 0x08 s.y ∧ ReadsReg s 0x09 (s.yLen.setWidth 64) ∧ ReadsReg s 0x0A (s.skw.setWidth 64) ∧
  ReadsReg s 0x0B (s.ptabLen.setWidth 64) ∧ ReadsReg s 0x0C (s.msgInLen.setWidth 64) ∧ ReadsReg s 0x0D (s.msgOutLen.setWidth 64) ∧
  ReadsReg s 0x0E (s.caps.setWidth 64) ∧ (∀ r : Fin 16, ReadsReg s (0x10 + r) (s.sk[r].setWidth 64)) ∧
  ∀ (j : Fin 64) (e : Byte), s.ptab.read j = some e → ReadsReg s (0x20 + j) (e.setWidth 64)

/-- What a host write of `v` to each data register of 10_state.md R20 stores, its implemented bits (R26): a subkey write sets its bit of SKW
(R28), a PTAB write changes its entry only. -/
def WritesTheMap (s : State) (v : Word) : Prop :=
  WritesReg s 0x02 v { s with key := v } ∧ WritesReg s 0x03 v { s with keyLen := v.setWidth 8 } ∧
  WritesReg s 0x04 v { s with a := v } ∧ WritesReg s 0x05 v { s with aLen := v.setWidth 8 } ∧
  WritesReg s 0x06 v { s with b := v } ∧ WritesReg s 0x07 v { s with bLen := v.setWidth 8 } ∧
  WritesReg s 0x0B v { s with ptabLen := v.setWidth 8 } ∧ WritesReg s 0x0C v { s with msgInLen := v.setWidth 32 } ∧
  (∀ r : Fin 16, WritesReg s (0x10 + r) v { s with sk := s.sk.set r (v.setWidth 48), skw := s.skw ||| (1#16 <<< r.val) }) ∧
  ∀ j : Fin 64, ∃ m : Memory 8, WritesReg s (0x20 + j) v { s with ptab := m } ∧
    ∀ k : Nat, m.read k = if k = j then some (v.setWidth 8) else s.ptab.read k

/-- The only effects of a REG write other than to CMD (20_memory.md R70): the register `r` at the index, and the written bit of a subkey or
a PTAB entry. -/
def ChangesOnlyReg (s t : State) (r : Reg) : Prop :=
  (∀ r' : Reg, r' ≠ r → r' ≠ .skw → t.readReg r' = s.readReg r') ∧
  (∀ k : Fin 16, t.skw.getLsbD k = (s.skw.getLsbD k || decide (r = .sk k))) ∧
  (∀ k : Fin 64, t.ptab.written k = (s.ptab.written k || decide (r = .ptab k))) ∧
  t.min = s.min ∧ t.mout = s.mout ∧ t.pending = s.pending ∧ t.readData = s.readData

/-- The only effects of a MIN write (20_memory.md R70): the element at the index, and its written bit. -/
def ChangesOnlyMin (s t : State) (i : Nat) : Prop :=
  t = { s with min := t.min } ∧ (∀ j, j ≠ i → t.min.read j = s.min.read j) ∧
  ∀ j, t.min.written j = (s.min.written j || decide (j = i))

/-- The accesses of 20_memory.md R66, bullet by bullet. -/
def RefusedAccess (s : State) : Access → Prop
  | .rd .reg i => i = 0x0F ∨ 0x60 ≤ i ∨ (0x20 ≤ i ∧ i ≤ 0x5F ∧ s.ptab.written (i - 0x20) = false)
  | .wr .reg i _ => i = 0x0F ∨ 0x60 ≤ i ∨ i = 0x01 ∨ i = 0x08 ∨ i = 0x09 ∨ i = 0x0A ∨ i = 0x0D ∨ i = 0x0E
  | .rd .min i => s.caps.toNat ≤ i ∨ s.min.written i = false
  | .wr .min i _ => s.caps.toNat ≤ i
  | .rd .mout i => s.msgOutLen.toNat ≤ i
  | .wr .mout _ _ => True
  | .reset => False

/-- The output length of ENCM and DECM for an input of `n` units (44_message_framer.md R262). -/
def cipherLength : Enc → Enc → Nat → Nat
  | .raw, .hex, n => 16 * ((n + 7) / 8)
  | .raw, .raw, n => 8 * ((n + 7) / 8)
  | .hex, .hex, n => 16 * ((n + 15) / 16)
  | .hex, .raw, n => 8 * ((n + 15) / 16)

/-- The output length of CONV for an input of `n` units (44_message_framer.md R262). -/
def convLength : Enc → Enc → Nat → Nat
  | .raw, .hex, n => 2 * n
  | .raw, .raw, n => n
  | .hex, .hex, n => n
  | .hex, .raw, n => (n + 1) / 2

/-- The value of an output digit: a hex character's digit, or a byte (44_message_framer.md R251, R256). -/
def digitValue : Enc → Byte → Nat
  | .hex, c => ((hexVal (c.setWidth 32)).getD 0).toNat
  | .raw, c => c.toNat

/-- The number of bits of an output element (44_message_framer.md R255, R256). -/
def digitBits : Enc → Nat
  | .hex => 4
  | .raw => 8

/-- The next access of the host. -/
def nextIs (s : State) (a : Access) : Prop := ∃ rest, s.pending = a :: rest

/-- `n` steps. -/
def run (n : Nat) (s : State) : Result := Host.Core.run Sys2Proof.core n s

end Sys2Proof.Claims

open Sys2Proof Sys2Proof.Machine Sys2Proof.Claims

/-! ## Encoding -/

/-- 30_encoding.md R91 to R97, R101: decoding the word of a command gives the command back, whatever its operands. -/
def Obligations.DecodeOfEncode : Prop := ∀ i : Instr, i.WellFormed → decode (encode i) = .ok i

/-- 30_encoding.md R92, R97: a word decodes only to a well-formed command, and it is that command's word. -/
def Obligations.EncodeOfDecode : Prop := ∀ (w : Word) (i : Instr), decode w = .ok i → i.WellFormed ∧ encode i = w

/-- 30_encoding.md R92: no two rows of the opcode table match the same word. -/
def Obligations.NoTwoRowsMatchOneWord : Prop :=
  ∀ (c : BitVec 32) (j k : Nat) (hj : j < opcodeTable.length) (hk : k < opcodeTable.length),
    opcodeTable[j].holds c = true → opcodeTable[k].holds c = true → j = k

/-- 30_encoding.md R98: a word of one of the listed shapes raises IllegalCommand and changes CMD and STATUS only; every other word
selects a command. -/
def Obligations.ListedWordsAreExactlyTheIllegalOnes : Prop :=
  ∀ w : Word,
    (IllegalShape w → ∀ s : State,
      runCommand w s = .next { s with
        cmd := w, status := { done := true, err := true, errSticky := true, errCode := 10, lastOp := w.extractLsb' 0 6 } }) ∧
    (¬IllegalShape w → ∃ i, decode w = .ok i ∧ ∀ s : State, runCommand w s = exec i { s with cmd := w })

/-- 30_encoding.md R97: words written out from the patterns of the table, at least one a family. -/
def Obligations.WordsOfTheOpcodeTable : Prop :=
  decode 0x00000001 = .ok .derive ∧ decode 0x00000002 = .ok .encb ∧ decode 0x00000003 = .ok .decb ∧
  decode 0x00000204 = .ok (.encm .raw .hex) ∧ decode 0x00000105 = .ok (.decm .hex .raw) ∧ decode 0x00000006 = .ok .feis ∧
  decode 0x00000007 = .ok .perm ∧ decode 0x00001007 = .ok .permIp ∧ decode 0x00006007 = .ok .permPc2 ∧
  decode 0x003F0008 = .ok (.rotl 63) ∧ decode 0x00000009 = .ok .xor ∧ decode 0x0000000A = .ok .cat ∧
  decode 0x0007000B = .ok (.sbox 7) ∧ decode 0x0000030C = .ok (.conv .hex .hex)

/-! ## The functions of the algorithm -/

/-- 40_bitseq.md R120: position j of PERMUTE(s, T) is position T[j] of s. -/
def Obligations.PermuteSelectsPositions : Prop :=
  ∀ (n : Nat) (s : BitVec n) (T : List Nat), (∀ t ∈ T, 1 ≤ t ∧ t ≤ n) →
    ∀ (j : Nat) (h : j < T.length), pos (permute T.length s T) (j + 1) = pos s T[j]

/-- 40_bitseq.md R121: the value of ROTL(s, k), its positions, and that ROTL(s, 0) = s. -/
def Obligations.RotateLeftMovesPositions : Prop :=
  ∀ (n : Nat) (s : BitVec n) (k : Nat), k < n →
    (rotl s k).toNat = ((s.toNat <<< k) ||| (s.toNat >>> (n - k))) % 2 ^ n ∧
    (∀ p, 1 ≤ p → p ≤ n → pos (rotl s k) p = pos s ((p - 1 + k) % n + 1)) ∧
    rotl s 0 = s

/-- 43_block_cipher.md R222: FP[IP[j]] = j, and PERMUTE by IP and then by FP gives back the block; so does FP and then IP. -/
def Obligations.FinalPermutationInvertsInitial : Prop :=
  (∀ j, 1 ≤ j → j ≤ 64 → tableFP.getD (tableIP.getD (j - 1) 0 - 1) 0 = j) ∧
  ∀ s : Word, permute 64 (permute 64 s tableIP) tableFP = s ∧ permute 64 (permute 64 s tableFP) tableIP = s

/-- 42_round_function.md R205: row and column stay in the 4 x 16 grid, and the grid has a 4-bit entry there. -/
def Obligations.SboxLookupsStayInTheGrid : Prop :=
  ∀ (g : Fin 8) (x : BitVec 6), sboxRow x < 4 ∧ sboxCol x < 16 ∧
    ∃ box row v, sboxes[g.val]? = some box ∧ box[sboxRow x]? = some row ∧ row[sboxCol x]? = some v ∧ v < 16 ∧
      (subst g.val x).toNat = v

/-- 42_round_function.md R200 to R202, bit by bit: position p of F(r, k) is a bit of the S-box of the group that P selects, looked up with
the six expanded and keyed bits of that group. -/
def Obligations.FeistelBitByBit : Prop :=
  ∀ (r : Half) (k : Subkey) (p : Nat), 1 ≤ p → p ≤ 32 →
    let q := tableP.getD (p - 1) 0
    let g := (q - 1) / 4
    let x := fun c => pos r (tableE.getD (6 * g + c - 1) 0) ^^ pos k (6 * g + c)
    pos (feistel r k) p =
      (sboxEntry g ((x 1).toNat * 2 + (x 6).toNat) ((x 2).toNat * 8 + (x 3).toNat * 4 + (x 4).toNat * 2 + (x 5).toNat)).testBit
        (3 - (q - 1) % 4)

/-- 41_key_schedule.md R164, R166, R167: K_r is PC-2 of the halves C_0 and D_0 rotated by SHIFTS[1] + ... + SHIFTS[r], and after all
sixteen rounds each half is back where it was. -/
def Obligations.SubkeysComeFromTotalRotations : Prop :=
  (∀ (key : Word) (r : Nat), 1 ≤ r → r ≤ 16 →
    let cd := permute 56 key tablePC1
    let total := (shifts.take r).sum
    (keySchedule key)[r - 1]? = some (permute 48 (rotl (firstBits 28 cd) total ++ rotl (lastBits 28 cd) total) tablePC2)) ∧
  ∀ c : KeyHalf, shifts.foldl rotl c = c

/-- 41_key_schedule.md R161: PC-1 never selects exactly the positions 8, 16, ..., 64, and keys that differ only there have the same subkeys,
and from states that differ only in such keys DERIVE leaves states that differ only in KEY, with the same subkey file. -/
def Obligations.ParityBitsDoNotMatter : Prop :=
  (∀ p, 1 ≤ p → p ≤ 64 → (p ∉ tablePC1 ↔ p % 8 = 0)) ∧
  ∀ k k' : Word, (∀ p, 1 ≤ p → p ≤ 64 → p % 8 ≠ 0 → pos k p = pos k' p) →
    keySchedule k = keySchedule k' ∧
    ∀ s t : State, exec .derive { s with key := k } = .next t → exec .derive { s with key := k' } = .next { t with key := k' }

/-- 43_block_cipher.md R228: for every list of subkeys, DEC undoes ENC and ENC undoes DEC. -/
def Obligations.DecryptInvertsEncrypt : Prop :=
  ∀ (b : Word) (ks : List Subkey), decBlock (encBlock b ks) ks = b ∧ encBlock (decBlock b ks) ks = b

/-- 43_block_cipher.md R229: with a palindrome for a subkey list, ENC is its own inverse; the four weak keys give sixteen equal subkeys; and
for the key and block of the document's vector, encrypting twice does not give the block back. -/
def Obligations.PalindromeSchedulesMakeEncryptionAnInvolution : Prop :=
  (∀ (b : Word) (ks : List Subkey), ks.reverse = ks → encBlock b ks = decBlock b ks ∧ encBlock (encBlock b ks) ks = b) ∧
  keySchedule 0x0101010101010101 = List.replicate 16 0x000000000000 ∧
  keySchedule 0xFEFEFEFEFEFEFEFE = List.replicate 16 0xFFFFFFFFFFFF ∧
  keySchedule 0xE0E0E0E0F1F1F1F1 = List.replicate 16 0xFFFFFF000000 ∧
  keySchedule 0x1F1F1F1F0E0E0E0E = List.replicate 16 0x000000FFFFFF ∧
  encBlock (encBlock 0x0123456789ABCDEF (keySchedule 0x133457799BBCDFF1)) (keySchedule 0x133457799BBCDFF1) = 0x67AE7A2961DFA345

/-- 41_key_schedule.md R166, 42_round_function.md R202 and 43_block_cipher.md R223 together: complementing the key and the block
complements the result. -/
def Obligations.ComplementedKeyAndBlockComplementTheResult : Prop :=
  ∀ k b : Word, encBlock (~~~b) (keySchedule (~~~k)) = ~~~(encBlock b (keySchedule k))

/-! ## The commands -/

/-- 40_bitseq.md R124: PERM puts position PTAB[j-1] of A at position j of Y; an operand that is too long, a table that is too long, and the
first bad entry each raise their error. -/
def Obligations.PermPermutesByTheHostTable : Prop :=
  decode 0x00000007 = .ok .perm ∧ ∀ s : State,
    (∀ T : List Byte, s.aLen.toNat ≤ 64 → s.ptabLen.toNat ≤ 64 → T.length = s.ptabLen.toNat →
      (∀ (j : Nat) (h : j < T.length), s.ptab.read j = some T[j] ∧ 1 ≤ T[j].toNat ∧ T[j].toNat ≤ s.aLen.toNat) →
      ∃ v : BitVec s.ptabLen.toNat, AnswersY .perm s s.ptabLen.toNat v ∧
        ∀ (j : Nat) (h : j < T.length), pos v (j + 1) = pos (seqA s) T[j].toNat) ∧
    (64 < s.aLen.toNat → AnswersError .perm s 2) ∧
    (s.aLen.toNat ≤ 64 → 64 < s.ptabLen.toNat → AnswersError .perm s 5) ∧
    (∀ j, s.aLen.toNat ≤ 64 → s.ptabLen.toNat ≤ 64 → j < s.ptabLen.toNat →
      (∀ k, k < j → ∃ e, s.ptab.read k = some e ∧ 1 ≤ e.toNat ∧ e.toNat ≤ s.aLen.toNat) →
      (s.ptab.read j = none → AnswersError .perm s 11) ∧
      (∀ e, s.ptab.read j = some e → e.toNat = 0 ∨ s.aLen.toNat < e.toNat → AnswersError .perm s 5))

/-- 40_bitseq.md R125 to R130: each fixed-table command puts position T[p] of A at position p of Y, for every A of at least max(T)
positions; a longer or shorter operand raises its error; and the bound is the largest entry of the table. -/
def Obligations.FixedPermutationsSelectPositions : Prop :=
  ∀ i w max T, (i, w, max, T) ∈ fixedPermutations →
    decode w = .ok i ∧ (max ∈ T ∧ ∀ t ∈ T, 1 ≤ t ∧ t ≤ max) ∧
    ∀ s : State,
      (max ≤ s.aLen.toNat → s.aLen.toNat ≤ 64 →
        ∃ v : BitVec T.length, AnswersY i s T.length v ∧ ∀ (j : Nat) (h : j < T.length), pos v (j + 1) = pos (seqA s) T[j]) ∧
      (64 < s.aLen.toNat → AnswersError i s 2) ∧
      (s.aLen.toNat < max → AnswersError i s 5)

/-- 40_bitseq.md R131: ROTL moves position p + n of A, counted round, to position p of Y; an amount not below A_LEN is an error. -/
def Obligations.RotlRotatesA : Prop :=
  ∀ (s : State) (n : Nat), n < 64 →
    decode (0x00000008 ||| (BitVec.ofNat 64 n <<< 16)) = .ok (.rotl n) ∧
    (n < s.aLen.toNat → s.aLen.toNat ≤ 64 →
      ∃ v : BitVec s.aLen.toNat, AnswersY (.rotl n) s s.aLen.toNat v ∧
        ∀ p, 1 ≤ p → p ≤ s.aLen.toNat → pos v p = pos (seqA s) ((p - 1 + n) % s.aLen.toNat + 1)) ∧
    (64 < s.aLen.toNat → AnswersError (.rotl n) s 2) ∧
    (s.aLen.toNat ≤ n → AnswersError (.rotl n) s 6)

/-- 40_bitseq.md R132: XOR combines A and B position by position; A's length is checked first, then B's, then that they are equal. -/
def Obligations.XorCombinesPositions : Prop :=
  decode 0x00000009 = .ok .xor ∧ ∀ s : State,
    (s.aLen = s.bLen → s.aLen.toNat ≤ 64 →
      ∃ v : BitVec s.aLen.toNat, AnswersY .xor s s.aLen.toNat v ∧
        ∀ p, 1 ≤ p → p ≤ s.aLen.toNat → pos v p = (pos (seqA s) p ^^ pos (seqB s) p)) ∧
    (64 < s.aLen.toNat ∨ 64 < s.bLen.toNat → AnswersError .xor s 2) ∧
    (s.aLen.toNat ≤ 64 → s.bLen.toNat ≤ 64 → s.aLen ≠ s.bLen → AnswersError .xor s 3)

/-- 40_bitseq.md R133: CAT's result has A's positions first and B's after them; more than 64 bits is an error. -/
def Obligations.CatJoinsAAndB : Prop :=
  decode 0x0000000A = .ok .cat ∧ ∀ s : State,
    (s.aLen.toNat + s.bLen.toNat ≤ 64 →
      ∃ v : BitVec (s.aLen.toNat + s.bLen.toNat), AnswersY .cat s (s.aLen.toNat + s.bLen.toNat) v ∧
        (∀ p, 1 ≤ p → p ≤ s.aLen.toNat → pos v p = pos (seqA s) p) ∧
        ∀ p, 1 ≤ p → p ≤ s.bLen.toNat → pos v (s.aLen.toNat + p) = pos (seqB s) p) ∧
    (64 < s.aLen.toNat + s.bLen.toNat → AnswersError .cat s 2)

/-- 42_round_function.md R203, R200: SBOX looks up S[g] with the outer bits of A's six as the row and the inner four as the column. -/
def Obligations.SboxLooksUpOneEntry : Prop :=
  ∀ (s : State) (g : Nat), g < 8 →
    decode (0x0000000B ||| (BitVec.ofNat 64 g <<< 16)) = .ok (.sbox g) ∧
    (s.aLen = 6 →
      let u := s.a.toNat % 64
      AnswersY (.sbox g) s 4 (BitVec.ofNat 4 (sboxEntry g (u / 32 * 2 + u % 2) (u / 2 % 16)))) ∧
    (s.aLen ≠ 6 → AnswersError (.sbox g) s 2)

/-- 42_round_function.md R204: FEIS puts F(A, B) in Y; any other pair of lengths is an error. -/
def Obligations.FeisAppliesTheRoundFunction : Prop :=
  decode 0x00000006 = .ok .feis ∧ ∀ s : State,
    (s.aLen = 32 → s.bLen = 48 → AnswersY .feis s 32 (feistel (s.a.setWidth 32) (s.b.setWidth 48))) ∧
    (¬(s.aLen = 32 ∧ s.bLen = 48) → AnswersError .feis s 2)

/-- 41_key_schedule.md R168: DERIVE writes KS(KEY) to the subkey file and sets all of SKW, and nothing else but STATUS; with another KEY_LEN
it raises InvalidKeyLength. -/
def Obligations.DeriveLoadsTheSubkeyFile : Prop :=
  decode 0x00000001 = .ok .derive ∧ ∀ s : State,
    (s.keyLen = 64 → ∃ sk : Vector Subkey 16,
      exec .derive s = .next { s with sk := sk, skw := 0xFFFF, status := okStatus s } ∧
      ∀ r : Fin 16, (keySchedule s.key)[r.val]? = some sk[r]) ∧
    (s.keyLen ≠ 64 → AnswersError .derive s 1)

/-- 43_block_cipher.md R226: ENCB encrypts A with SK[1] to SK[16]; the length is checked before the subkey file. -/
def Obligations.EncbEncryptsTheBlockInA : Prop :=
  decode 0x00000002 = .ok .encb ∧ ∀ s : State,
    (s.aLen = 64 → s.skw = 0xFFFF → AnswersY .encb s 64 (desBlock s.a s.sk.toList)) ∧
    (s.aLen ≠ 64 → AnswersError .encb s 2) ∧
    (s.aLen = 64 → s.skw ≠ 0xFFFF → AnswersError .encb s 8)

/-- 43_block_cipher.md R227: DECB applies the same function with the subkeys SK[16] to SK[1]. -/
def Obligations.DecbDecryptsTheBlockInA : Prop :=
  decode 0x00000003 = .ok .decb ∧ ∀ s : State,
    (s.aLen = 64 → s.skw = 0xFFFF → AnswersY .decb s 64 (desBlock s.a s.sk.toList.reverse)) ∧
    (s.aLen ≠ 64 → AnswersError .decb s 2) ∧
    (s.aLen = 64 → s.skw ≠ 0xFFFF → AnswersError .decb s 8)

/-- 43_block_cipher.md R226 to R228: ENCB, then DECB on what it left in Y, gives the block back in Y; and DECB, then ENCB, too. -/
def Obligations.EncbThenDecbGivesTheBlockBack : Prop :=
  ∀ s : State, s.aLen = 64 → s.skw = 0xFFFF →
    (∃ t u, exec .encb s = .next t ∧ exec .decb { t with a := t.y, aLen := t.yLen } = .next u ∧ u.y = s.a ∧ u.yLen = 64) ∧
    ∃ t u, exec .decb s = .next t ∧ exec .encb { t with a := t.y, aLen := t.yLen } = .next u ∧ u.y = s.a ∧ u.yLen = 64

/-- 44_message_framer.md R259, R260, R265: ENCM and DECM transform the input message block by block with the subkeys of KEY. -/
def Obligations.MessageCommandsTransformEveryBlock : Prop :=
  ∀ (s : State) (us : List CodeUnit) (ie oe : Enc), InputIs s us → (∀ u ∈ us, unitOk ie u = true) → s.keyLen = 64 →
    AnswersMessage (.encm ie oe) s
      (encodeMessage oe (transformBlocks encBlock (keySchedule s.key) (frame (messageBits ie us)))) ∧
    AnswersMessage (.decm ie oe) s
      (encodeMessage oe (transformBlocks decBlock (keySchedule s.key) (frame (messageBits ie us))))

/-- 44_message_framer.md R261: CONV writes the input message in the other encoding. -/
def Obligations.ConvReencodesTheMessage : Prop :=
  ∀ (s : State) (us : List CodeUnit) (ie oe : Enc), InputIs s us → (∀ u ∈ us, unitOk ie u = true) →
    AnswersMessage (.conv ie oe) s (encodeMessage oe (messageBits ie us))

/-- 44_message_framer.md R261, the corner cases element by element: raw to raw copies bytes, hex to hex makes digits upper case, raw to
hex gives two digits a byte, and hex to raw packs digits in pairs, an odd count getting a zero digit on the left. -/
def Obligations.ConvOutputElementByElement : Prop :=
  ∀ us : List CodeUnit,
    ((∀ u ∈ us, unitOk .raw u = true) →
      encodeMessage .raw (messageBits .raw us) = us.map (fun u => u.setWidth 8) ∧
      encodeMessage .hex (messageBits .raw us) =
        us.flatMap (fun u => [hexChar (u.extractLsb' 4 4), hexChar (u.extractLsb' 0 4)])) ∧
    ((∀ u ∈ us, unitOk .hex u = true) →
      encodeMessage .hex (messageBits .hex us) = us.map (fun u => hexChar ((hexVal u).getD 0)) ∧
      ∀ j, j < (us.length + 1) / 2 →
        let digit := fun k => (us[k]?.bind hexVal).getD 0
        let odd := us.length % 2
        (encodeMessage .raw (messageBits .hex us))[j]? =
          some ((if odd = 1 ∧ j = 0 then 0#4 else digit (2 * j - odd)) ++ digit (2 * j + 1 - odd)))

/-- 44_message_framer.md R254, 60_exceptions.md R306: the order of a message command's checks. A length above MSG_CAP comes first; then the
first bad element decides; the key comes last. -/
def Obligations.MessageErrorsInOrder : Prop :=
  ∀ (s : State) (ie oe : Enc),
    (s.caps.toNat < s.msgInLen.toNat →
      AnswersError (.encm ie oe) s 9 ∧ AnswersError (.decm ie oe) s 9 ∧ AnswersError (.conv ie oe) s 9) ∧
    (∀ j, s.msgInLen.toNat ≤ s.caps.toNat → j < s.msgInLen.toNat → GoodBefore ie s j →
      (s.min.read j = none →
        AnswersError (.encm ie oe) s 11 ∧ AnswersError (.decm ie oe) s 11 ∧ AnswersError (.conv ie oe) s 11) ∧
      (∀ u, s.min.read j = some u → unitOk ie u = false →
        AnswersError (.encm ie oe) s (encodingErrorCode ie) ∧ AnswersError (.decm ie oe) s (encodingErrorCode ie) ∧
        AnswersError (.conv ie oe) s (encodingErrorCode ie))) ∧
    (s.msgInLen.toNat ≤ s.caps.toNat → GoodBefore ie s s.msgInLen.toNat → s.keyLen ≠ 64 →
      AnswersError (.encm ie oe) s 1 ∧ AnswersError (.decm ie oe) s 1)

/-- 44_message_framer.md R255, R256: the output is the sequence's value written in hex digits or bytes, padded with zeros on the left to a
whole number of them; every hex digit is an upper-case ASCII character. -/
def Obligations.EncodeWritesTheValueInDigits : Prop :=
  ∀ (e : Enc) (q : BitSeq),
    (encodeMessage e q).length = (q.len + digitBits e - 1) / digitBits e ∧
    (encodeMessage e q).foldl (fun acc c => acc * 2 ^ digitBits e + digitValue e c) 0 = q.bits.toNat ∧
    (e = .hex → ∀ c ∈ encodeMessage e q, 0x30 ≤ c.toNat ∧ c.toNat ≤ 0x39 ∨ 0x41 ≤ c.toNat ∧ c.toNat ≤ 0x46)

/-- 44_message_framer.md R257: FRAME's blocks, joined, are the sequence with zeros on the right up to the next multiple of 64; a
multiple of 64 gets none, and the empty sequence gives no block. -/
def Obligations.FramePadsOnTheRight : Prop :=
  ∀ q : BitSeq,
    (frame q).length = (q.len + 63) / 64 ∧
    (concatGroups (frame q)).len = 64 * ((q.len + 63) / 64) ∧
    (concatGroups (frame q)).bits.toNat = q.bits.toNat <<< (64 * ((q.len + 63) / 64) - q.len)

/-- 44_message_framer.md R258, R263: output block j is the block function of input block j alone, so equal blocks give equal blocks. -/
def Obligations.BlocksAreIndependent : Prop :=
  ∀ (f : Word → List Subkey → Word) (ks : List Subkey) (bs : List Word),
    (transformBlocks f ks bs).len = 64 * bs.length ∧
    (∀ (j : Nat) (h : j < bs.length), seg (transformBlocks f ks bs).bits j 64 = f bs[j] ks) ∧
    ∀ j k : Nat, j < bs.length → k < bs.length → bs[j]? = bs[k]? →
      seg (transformBlocks f ks bs).bits j 64 = seg (transformBlocks f ks bs).bits k 64

/-- 44_message_framer.md R262, 20_memory.md R64: the output lengths of the table, and that they fit MOUT. -/
def Obligations.OutputLengthsFitMout : Prop :=
  ∀ (us : List CodeUnit) (ie oe : Enc) (f : Word → List Subkey → Word) (ks : List Subkey) (msgCap : Nat),
    (encodeMessage oe (transformBlocks f ks (frame (messageBits ie us)))).length = cipherLength ie oe us.length ∧
    (encodeMessage oe (messageBits ie us)).length = convLength ie oe us.length ∧
    cipherLength ie oe us.length ≤ 2 * us.length + 14 ∧ convLength ie oe us.length ≤ 2 * us.length + 14 ∧
    (us.length ≤ msgCap → cipherLength ie oe us.length ≤ 2 * msgCap + 16 ∧ convLength ie oe us.length ≤ 2 * msgCap + 16)

/-- 44_message_framer.md R260: DECM with the encodings swapped, on the output of ENCM, gives the padded plaintext in its own encoding. -/
def Obligations.DecmInvertsEncm : Prop :=
  ∀ (s t s' : State) (us : List CodeUnit) (x y : Enc),
    InputIs s us → (∀ u ∈ us, unitOk x u = true) → s.keyLen = 64 → s.caps.toNat ≤ 2 ^ 30 → exec (.encm x y) s = .next t →
    s'.key = s.key → s'.keyLen = 64 → s'.msgInLen = t.msgOutLen → t.msgOutLen.toNat ≤ s'.caps.toNat →
    (∀ j, j < t.msgOutLen.toNat → s'.min.read j = (t.mout.read j).map (fun c => c.setWidth 32)) →
    AnswersMessage (.decm y x) s' (encodeMessage x (padRight 64 (messageBits x us)))

/-- 44_message_framer.md R260, R264: a text encrypted to hex and decrypted to raw comes back as its own bytes followed by the zero bytes
of its padding. -/
def Obligations.TextComesBackWithItsPadding : Prop :=
  ∀ (s t s' : State) (us : List CodeUnit),
    InputIs s us → (∀ u ∈ us, unitOk .raw u = true) → s.keyLen = 64 → s.caps.toNat ≤ 2 ^ 30 →
    exec (.encm .raw .hex) s = .next t →
    s'.key = s.key → s'.keyLen = 64 → s'.msgInLen = t.msgOutLen → t.msgOutLen.toNat ≤ s'.caps.toNat →
    (∀ j, j < t.msgOutLen.toNat → s'.min.read j = (t.mout.read j).map (fun c => c.setWidth 32)) →
    AnswersMessage (.decm .hex .raw) s'
      (us.map (fun u => u.setWidth 8) ++ List.replicate (8 * ((us.length + 7) / 8) - us.length) 0#8)

/-! ## Rules of the whole machine -/

/-- 60_exceptions.md R302, R318: every command ends in a next state, whatever the state before it. -/
def Obligations.EveryCommandEndsInANextState : Prop := ∀ (i : Instr) (s : State), ∃ t, exec i s = .next t

/-- 10_state.md R21, R22, R33, R27 and 20_memory.md R63: what each command can change. No command writes an operand register, the key, PTAB,
MIN or CAPS; only the commands of R33 write Y; only DERIVE writes the subkey file; only ENCM, DECM and CONV write MOUT. -/
def Obligations.CommandsWriteOnlyTheirResults : Prop :=
  ∀ (i : Instr) (s t : State), exec i s = .next t →
    (writesY i = true → t = { s with y := t.y, yLen := t.yLen, status := t.status }) ∧
    (i = .derive → t = { s with sk := t.sk, skw := t.skw, status := t.status }) ∧
    (writesMout i = true → t = { s with mout := t.mout, msgOutLen := t.msgOutLen, status := t.status } ∧
      (s.caps.toNat ≤ 2 ^ 30 → ∀ j, t.msgOutLen.toNat ≤ j → t.mout.read j = s.mout.read j))

/-- 60_exceptions.md R303: raising an error after the word is stored in CMD records the error in STATUS and changes nothing else; and every
command that ends with an error ends so. -/
def Obligations.ErrorsChangeStatusOnly : Prop :=
  ∀ (w : Word) (s : State),
    (∀ e : CmdError, raise e (s.setCmd w) = .next { s with
      cmd := w, status := { done := true, err := true, errSticky := true, errCode := e.code, lastOp := w.extractLsb' 0 6 } }) ∧
    ∀ t : State, runCommand w s = .next t → t.status.err = true → ∃ e : CmdError, raise e (s.setCmd w) = .next t

/-- 60_exceptions.md R304: a command that ends without error leaves its word in CMD and records success; ERR_STICKY is unchanged. -/
def Obligations.SuccessIsRecorded : Prop :=
  ∀ (w : Word) (s t : State), runCommand w s = .next t → t.status.err = false →
    t.cmd = w ∧
    t.status = { done := true, err := false, errSticky := s.status.errSticky, errCode := 0, lastOp := w.extractLsb' 0 6 }

/-- 60_exceptions.md R305: a failing command sets ERR_STICKY, and only the reset input clears it. -/
def Obligations.StickyErrorLastsUntilReset : Prop :=
  (∀ (w : Word) (s t : State), runCommand w s = .next t → t.status.err = true → t.status.errSticky = true) ∧
  (∀ s t : State, step s = .next t → ¬nextIs s .reset → s.status.errSticky = true → t.status.errSticky = true) ∧
  ∀ s t : State, step s = .next t → nextIs s .reset → t.status.errSticky = false

/-- 60_exceptions.md R319: a command that failed gives the same error again when it is repeated with the same state. -/
def Obligations.RepeatedFailureIsTheSame : Prop :=
  ∀ (w : Word) (s t : State), runCommand w s = .next t → t.status.err = true → runCommand w t = .next t

/-- 10_state.md R36: no command reads STATUS: from states that differ only there, a command ends in states that differ in ERR_STICKY alone. -/
def Obligations.NoCommandReadsStatus : Prop :=
  ∀ (i : Instr) (s t : State) (st : Status), exec i s = .next t →
    exec i { s with status := st } = .next { t with status := { t.status with errSticky := st.errSticky || t.status.err } }

/-- 70_reset_and_hazards.md R353: no command reads Y: other contents of Y and Y_LEN change nothing but what is left in Y and Y_LEN, and
a success of a command that writes Y leaves nothing of them. -/
def Obligations.NoCommandReadsY : Prop :=
  ∀ (i : Instr) (s t : State) (y : Word) (n : BitVec 8), exec i s = .next t →
    if writesY i = true ∧ t.status.err = false then exec i { s with y := y, yLen := n } = .next t
    else exec i { s with y := y, yLen := n } = .next { t with y := y, yLen := n }

/-- 44_message_framer.md R265: the message commands neither read nor write the subkey file, A, B or Y. -/
def Obligations.MessageCommandsLeaveTheEngineAlone : Prop :=
  ∀ (i : Instr) (s t : State) (sk : Vector Subkey 16) (skw : BitVec 16) (a b y : Word) (n m k : BitVec 8),
    writesMout i = true → exec i s = .next t →
      t = { s with mout := t.mout, msgOutLen := t.msgOutLen, status := t.status } ∧
      exec i { s with sk := sk, skw := skw, a := a, aLen := n, b := b, bLen := m, y := y, yLen := k } =
        .next { t with sk := sk, skw := skw, a := a, aLen := n, b := b, bLen := m, y := y, yLen := k }

/-! ## Host accesses and steps -/

/-- 60_exceptions.md R302: when the host's next access writes a word to CMD and the word decodes to a command, the step is that command's exec,
with the word stored in CMD and the access no longer pending (the host's list of accesses is the model's: notes/assumptions/1.md). -/
def Obligations.StepRunsTheDecodedCommand : Prop :=
  ∀ (s : State) (w : Word) (rest : List Access) (i : Instr), s.pending = .wr .reg 0 w :: rest → decode w = .ok i →
    step s = exec i { s with cmd := w, pending := rest }

/-- 70_reset_and_hazards.md R352, R354 and 60_exceptions.md R317: a step performs the host's first pending access; with none pending the state
stays as it is (the model's choice, notes/assumptions/4.md). -/
def Obligations.StepPerformsTheNextAccess : Prop :=
  (∀ (s : State) (a : Access) (rest : List Access), s.pending = a :: rest → step s = perform a { s with pending := rest }) ∧
  ∀ s : State, s.pending = [] → step s = .next s

/-- 10_state.md R20, R24 to R34: which register each index holds, by what a host read of it returns and what a host write of it stores; every
register has its own index, and the indices that hold none are 0x0F and those from 0x60 on. That an index above
0xFF, which R20 does not have, is treated as a reserved one is the model's choice (notes/assumptions/16.md). -/
def Obligations.RegisterMapHasNoOverlap : Prop :=
  (∀ r : Reg, Reg.ofIndex r.index = some r) ∧ (∀ i r, Reg.ofIndex i = some r → r.index = i) ∧
  (∀ i, Reg.ofIndex i = none ↔ i = 0x0F ∨ 0x60 ≤ i) ∧ ∀ s : State, ReadsTheMap s ∧ ∀ v : Word, WritesTheMap s v

/-- 10_state.md R24: the bits of the word a host reads from STATUS. -/
def Obligations.StatusWordHasTheFieldsOfR24 : Prop :=
  ∀ s : State, ∃ w, perform (.rd .reg 0x01) s = .next { s with readData := some w } ∧
    w.getLsbD 0 = s.status.done ∧ w.getLsbD 1 = s.status.err ∧ w.getLsbD 2 = s.status.errSticky ∧
    w.extractLsb' 3 5 = 0 ∧ w.extractLsb' 8 8 = s.status.errCode ∧ w.extractLsb' 16 6 = s.status.lastOp ∧ w.extractLsb' 22 42 = 0

/-- 10_state.md R26, R27, R28: a host write of a data register stores its low bits, a read then returns them zero-extended, every other
register reads as before (but SKW, which gains the bit of a written subkey), and no buffer changes. -/
def Obligations.RegisterWritesStoreTheLowBits : Prop :=
  ∀ (s : State) (r : Reg) (w : Nat) (v : Word), writableWidth r = some w →
    ∃ t, perform (.wr .reg r.index v) s = .next t ∧
      perform (.rd .reg r.index) t = .next { t with readData := some ((v.setWidth w).setWidth 64) } ∧
      ChangesOnlyReg s t r

/-- 20_memory.md R62, R63: a host read of a written MIN element, and of a MOUT element below MSG_OUT_LEN, returns the element zero-extended and
changes nothing in the core; a host write of a MIN element stores v[31:0] and sets the written bit; a read then returns it zero-extended; every other
element reads as before, and nothing but MIN changes. -/
def Obligations.MinHoldsWhatTheHostWrites : Prop :=
  (∀ (s : State) (i : Nat) (u : CodeUnit), i < s.caps.toNat → s.min.read i = some u →
    perform (.rd .min i) s = .next { s with readData := some (u.setWidth 64) }) ∧
  (∀ (s : State) (i : Nat) (c : Byte), i < s.msgOutLen.toNat → s.mout.read i = some c →
    perform (.rd .mout i) s = .next { s with readData := some (c.setWidth 64) }) ∧
  ∀ (s : State) (i : Nat) (v : Word), i < s.caps.toNat →
    ∃ m : Memory 32, perform (.wr .min i v) s = .next { s with min := m } ∧
      m.written i = true ∧ (∀ j, j ≠ i → m.read j = s.min.read j) ∧
      perform (.rd .min i) { s with min := m } = .next { s with min := m, readData := some ((v.setWidth 32).setWidth 64) }

/-- 20_memory.md R66: the core refuses exactly the listed accesses and takes every other one. The REG indices are those of R60, and MOUT holds
what MSG_OUT_LEN counts, as StepKeepsTheInvariant says. -/
def Obligations.RefusedAccessesAreExactlyTheListed : Prop :=
  ∀ (s : State) (a : Access), s.MessageOk → (∀ i, a = .rd .reg i ∨ (∃ v, a = .wr .reg i v) → i ≤ 0xFF) →
    (RefusedAccess s a → ∃ r, perform a s = .refused r) ∧ (¬RefusedAccess s a → ∃ t, perform a s = .next t)

/-- 20_memory.md R70: a read changes nothing in the core and can be repeated; a write other than a CMD write is idempotent, and changes nothing
but the element it names and that element's written bit. -/
def Obligations.OnlyCmdWritesHaveSideEffects : Prop :=
  (∀ (s t : State) (sp : Space) (i : Nat), perform (.rd sp i) s = .next t →
    t = { s with readData := t.readData } ∧ perform (.rd sp i) t = .next t) ∧
  ∀ (s t : State) (sp : Space) (i : Nat) (v : Word), ¬(sp = .reg ∧ i = 0) → perform (.wr sp i v) s = .next t →
    perform (.wr sp i v) t = .next t ∧ (sp = .min → ChangesOnlyMin s t i) ∧
    (sp = .reg → ∃ r, Reg.ofIndex i = some r ∧ ChangesOnlyReg s t r)

/-- 10_state.md R28, R40 and 70_reset_and_hazards.md R348: no step but a reset clears a bit of SKW or the written bit of a MIN element or
PTAB entry. -/
def Obligations.WrittenBitsLastUntilReset : Prop :=
  ∀ s t : State, step s = .next t → ¬nextIs s .reset →
    (∀ r : Fin 16, s.skw.getLsbD r = true → t.skw.getLsbD r = true) ∧
    (∀ j, s.ptab.written j = true → t.ptab.written j = true) ∧ ∀ j, s.min.written j = true → t.min.written j = true

/-- 70_reset_and_hazards.md R340, R341, 10_state.md R42: the reset input sets every register to 0 but CAPS, clears every written bit, and
leaves no MOUT element readable; the state every run starts from is such a state, with CAPS holding MSG_CAP. That the host's pending
accesses stay is the model's choice (notes/assumptions/8.md). -/
def Obligations.ResetInputSetsTheResetValues : Prop :=
  State.reset.caps.toNat = Config.msgCap ∧ perform .reset State.reset = .next State.reset ∧
  ∀ s : State, ∃ t, perform .reset s = .next t ∧
    t.cmd = 0 ∧ t.status.toWord = 0 ∧ t.key = 0 ∧ t.keyLen = 0 ∧ t.a = 0 ∧ t.aLen = 0 ∧ t.b = 0 ∧ t.bLen = 0 ∧ t.y = 0 ∧ t.yLen = 0 ∧
    (∀ r : Fin 16, t.sk[r] = 0) ∧ t.skw = 0 ∧ t.ptabLen = 0 ∧ (∀ j, t.ptab.written j = false) ∧ t.msgInLen = 0 ∧ t.msgOutLen = 0 ∧
    t.caps = s.caps ∧ (∀ j, t.min.written j = false) ∧ t.pending = s.pending

/-- 70_reset_and_hazards.md R343: what each command does on reset values. -/
def Obligations.CommandsOnResetValues : Prop :=
  let s := State.reset
  AnswersError .derive s 1 ∧ AnswersError .encb s 2 ∧ AnswersError .decb s 2 ∧ AnswersError .feis s 2 ∧
  (∀ g, g < 8 → AnswersError (.sbox g) s 2) ∧ AnswersY .perm s 0 0#0 ∧
  (∀ i ∈ [Instr.permIp, .permFp, .permE, .permP, .permPc1, .permPc2], AnswersError i s 5) ∧
  (∀ n, n < 64 → AnswersError (.rotl n) s 6) ∧ AnswersY .xor s 0 0#0 ∧ AnswersY .cat s 0 0#0 ∧
  ∀ ie oe, AnswersError (.encm ie oe) s 1 ∧ AnswersError (.decm ie oe) s 1 ∧ AnswersMessage (.conv ie oe) s []

/-- The invariant holds after reset. -/
def Obligations.InvariantAtReset : Prop := State.reset.Inv

/-- 10_state.md R24, R28, R33, R40, 20_memory.md R60, R63, R64, 60_exceptions.md R300: every step from a state that satisfies the invariant
ends in one: the buffers stay canonical and in range, MSG_OUT_LEN counts readable elements, Y stays below 2^Y_LEN, STATUS stays consistent,
and an unwritten subkey stays 0. -/
def Obligations.StepKeepsTheInvariant : Prop := ∀ s t : State, s.Inv → step s = .next t → t.Inv

/-- 30_encoding.md R102: what the assembler's loading lines leave, run as the accesses they expand to. The list of accesses and the value last
read are the model's fields (notes/assumptions/1.md, 2.md, 15.md). -/
def Obligations.LoadingLinesLoad : Prop :=
  ∀ (s : State) (v n : Word) (rest : List Access),
    run 2 { s with pending := ldKey v ++ rest } = .next { s with key := v, keyLen := 64, pending := rest } ∧
    run 2 { s with pending := ldA v n ++ rest } = .next { s with a := v, aLen := n.setWidth 8, pending := rest } ∧
    run 2 { s with pending := ldB v n ++ rest } = .next { s with b := v, bLen := n.setWidth 8, pending := rest } ∧
    run 4 { s with pending := movYA s ++ rest } =
      .next { s with a := s.y, aLen := s.yLen, readData := some (s.yLen.setWidth 64), pending := rest } ∧
    run 4 { s with pending := movYB s ++ rest } =
      .next { s with b := s.y, bLen := s.yLen, readData := some (s.yLen.setWidth 64), pending := rest }

/-- 30_encoding.md R102: LDMSG leaves the message in MIN and its length in MSG_IN_LEN; every other MIN element is as before (the list of
accesses is the model's field: notes/assumptions/1.md). -/
def Obligations.LdmsgLoadsTheMessage : Prop :=
  ∀ (s : State) (codes : List Word) (rest : List Access), codes.length ≤ s.caps.toNat →
    ∃ m : Memory 32,
      run (codes.length + 1) { s with pending := ldMsg codes ++ rest } =
        .next { s with min := m, msgInLen := BitVec.ofNat 32 codes.length, pending := rest } ∧
      ∀ j, m.read j = if h : j < codes.length then some (codes[j].setWidth 32) else s.min.read j
end

