-- ==== Sys2Proof/Laws/BitSeq.lean ====
section
/-! SUPPORT. The laws of positions, permutations, rotations and groups of bits (00_scope.md R8, R9; 40_bitseq.md R120, R121). -/

namespace Sys2Proof.Machine

variable {n m : Nat}

theorem pos_eq (s : BitVec n) (p : Nat) : pos s p = s.getLsbD (n - p) := rfl

/-- Bit `i` of a sequence is its position `n - i` (R8). -/
theorem getLsbD_eq_pos (s : BitVec n) {i : Nat} (h : i < n) : s.getLsbD i = pos s (n - i) := by
  rw [pos_eq]
  congr 1
  omega

/-- A sequence is its positions (R8). -/
theorem eq_of_pos {s t : BitVec n} (h : ∀ p, 1 ≤ p → p ≤ n → pos s p = pos t p) : s = t := by
  apply BitVec.eq_of_getLsbD_eq
  intro i hi
  rw [getLsbD_eq_pos s hi, getLsbD_eq_pos t hi]
  exact h _ (by omega) (by omega)

theorem pos_xor (s t : BitVec n) (p : Nat) : pos (s ^^^ t) p = (pos s p ^^ pos t p) := by
  simp [pos_eq]

theorem pos_not (s : BitVec n) {p : Nat} (h₁ : 1 ≤ p) (h₂ : p ≤ n) : pos (~~~s) p = !pos s p := by
  simp [pos_eq]
  omega

theorem pos_append_left (s : BitVec n) (t : BitVec m) {p : Nat} (h : p ≤ n) : pos (s ++ t) p = pos s p := by
  simp only [pos_eq, BitVec.getLsbD_append]
  rw [if_neg (by omega)]
  congr 1
  omega

theorem pos_append_right (s : BitVec n) (t : BitVec m) {p : Nat} (h₁ : 1 ≤ p) (h : p ≤ m) : pos (s ++ t) (n + p) = pos t p := by
  simp only [pos_eq, BitVec.getLsbD_append]
  rw [if_pos (by omega)]
  congr 1
  omega

theorem pos_firstBits (s : BitVec n) {k p : Nat} (hk : k ≤ n) (h₁ : 1 ≤ p) (h₂ : p ≤ k) : pos (firstBits k s) p = pos s p := by
  simp only [pos_eq, firstBits, BitVec.getLsbD_extractLsb']
  have : k - p < k := by omega
  simp only [this, decide_true, Bool.true_and]
  congr 1
  omega

theorem pos_lastBits (s : BitVec n) {k p : Nat} (hk : k ≤ n) (h₁ : 1 ≤ p) (h₂ : p ≤ k) :
    pos (lastBits k s) p = pos s (n - k + p) := by
  simp only [pos_eq, lastBits, BitVec.getLsbD_setWidth]
  have : k - p < k := by omega
  simp only [this, decide_true, Bool.true_and]
  congr 1
  omega

theorem pos_seg (s : BitVec n) {j w p : Nat} (h : (j + 1) * w ≤ n) (h₁ : 1 ≤ p) (h₂ : p ≤ w) :
    pos (seg s j w) p = pos s (j * w + p) := by
  simp only [pos_eq, seg, BitVec.getLsbD_extractLsb']
  have : w - p < w := by omega
  simp only [this, decide_true, Bool.true_and]
  congr 1
  have : (j + 1) * w = j * w + w := Nat.succ_mul j w
  omega

theorem firstBits_append (s : BitVec n) (t : BitVec m) : firstBits n (s ++ t) = s := by
  apply eq_of_pos
  intro p h₁ h₂
  rw [pos_firstBits _ (by omega) h₁ h₂, pos_append_left _ _ h₂]

theorem lastBits_append (s : BitVec n) (t : BitVec m) : lastBits m (s ++ t) = t := by
  apply eq_of_pos
  intro p h₁ h₂
  rw [pos_lastBits _ (by omega) h₁ h₂, Nat.add_sub_cancel, pos_append_right _ _ h₁ h₂]

theorem firstBits_append_lastBits (s : BitVec (n + m)) : firstBits n s ++ lastBits m s = s := by
  apply eq_of_pos
  intro p h₁ h₂
  by_cases h : p ≤ n
  · rw [pos_append_left _ _ h, pos_firstBits _ (by omega) h₁ h]
  · obtain ⟨q, rfl⟩ : ∃ q, p = n + q := ⟨p - n, by omega⟩
    rw [pos_append_right _ _ (by omega) (by omega), pos_lastBits _ (by omega) (by omega) (by omega)]
    congr 1
    omega

theorem permuteValue_lt (s : BitVec n) (T : List Nat) : permuteValue s T < 2 ^ T.length := by
  induction T with
  | nil => exact Nat.one_pos
  | cons t ts ih =>
    have : (pos s t).toNat ≤ 1 := Bool.toNat_le _
    simp only [permuteValue, List.length_cons, Nat.shiftLeft_eq, pow_succ]
    nlinarith [Nat.two_pow_pos ts.length]

theorem permute_toNat (s : BitVec n) (T : List Nat) : (permute T.length s T).toNat = permuteValue s T := by
  rw [permute, BitVec.toNat_ofNat, Nat.mod_eq_of_lt (permuteValue_lt s T)]

/-- Bit `T.length - 1 - j` of the sum of R120 is the selected position. -/
theorem testBit_permuteValue (s : BitVec n) (T : List Nat) (j : Nat) (h : j < T.length) :
    (permuteValue s T).testBit (T.length - 1 - j) = pos s T[j] := by
  induction T generalizing j with
  | nil => exact nomatch h
  | cons t ts ih =>
    have hlt := permuteValue_lt s ts
    have hor : ∀ x : Nat, x <<< ts.length + permuteValue s ts = x <<< ts.length ||| permuteValue s ts := fun x => by
      rw [Nat.shiftLeft_eq, Nat.mul_comm]
      exact Nat.two_pow_add_eq_or_of_lt hlt x
    simp only [permuteValue, hor, Nat.testBit_or, Nat.testBit_shiftLeft, List.length_cons, Nat.add_sub_cancel]
    cases j with
    | zero =>
      have h₀ : (permuteValue s ts).testBit ts.length = false := Nat.testBit_lt_two_pow hlt
      cases hp : pos s t <;> simp [h₀, hp]
    | succ j =>
      have hj : j < ts.length := by simpa using h
      have h₁ : ¬(ts.length ≤ ts.length - (j + 1)) := by omega
      simp only [h₁, decide_false, Bool.false_and, Bool.false_or, List.getElem_cons_succ]
      rw [← ih j hj]
      congr 1
      omega

theorem pos_permute_of_length (s : BitVec n) (T : List Nat) (hm : T.length = m) (j : Nat) (h : j < T.length) :
    pos (permute m s T) (j + 1) = pos s T[j] := by
  subst hm
  rw [← testBit_permuteValue s T j h, pos_eq, BitVec.getLsbD, permute_toNat]
  congr 1
  omega

/-- Two permutations in a row select through both tables. -/
theorem permute_permute (s : BitVec n) (T U : List Nat) (hT : T.length = m) (hU : ∀ u ∈ U, 1 ≤ u ∧ u ≤ m) (l : Nat)
    (hl : U.length = l) : permute l (permute m s T) U = permute l s (U.map (fun u => T.getD (u - 1) 0)) := by
  apply eq_of_pos
  intro p h₁ h₂
  obtain ⟨j, rfl⟩ : ∃ j, p = j + 1 := ⟨p - 1, by omega⟩
  have hj : j < U.length := by omega
  rw [pos_permute_of_length _ U hl j hj, pos_permute_of_length s _ (by simpa using hl) j (by simpa using hj)]
  obtain ⟨h₃, h₄⟩ := hU U[j] (List.getElem_mem hj)
  obtain ⟨k, hk⟩ : ∃ k, U[j] = k + 1 := ⟨U[j] - 1, by omega⟩
  rw [hk, pos_permute_of_length s T hT k (by omega)]
  simp only [List.getElem_map, hk, Nat.add_sub_cancel]
  rw [List.getD_eq_getElem _ _ (by omega)]

/-- Permuting by the positions in order changes nothing. -/
theorem permute_self (s : BitVec n) : permute n s ((List.range n).map (· + 1)) = s := by
  apply eq_of_pos
  intro p h₁ h₂
  obtain ⟨j, rfl⟩ : ∃ j, p = j + 1 := ⟨p - 1, by omega⟩
  rw [pos_permute_of_length s _ (by simp) j (by simp; omega)]
  simp

theorem permute_xor (s t : BitVec n) (T : List Nat) (hT : T.length = m) :
    permute m (s ^^^ t) T = permute m s T ^^^ permute m t T := by
  apply eq_of_pos
  intro p h₁ h₂
  obtain ⟨j, rfl⟩ : ∃ j, p = j + 1 := ⟨p - 1, by omega⟩
  rw [pos_xor]
  simp only [pos_permute_of_length _ T hT j (by omega), pos_xor]

theorem permute_not (s : BitVec n) (T : List Nat) (hT : T.length = m) (hb : ∀ t ∈ T, 1 ≤ t ∧ t ≤ n) :
    permute m (~~~s) T = ~~~(permute m s T) := by
  apply eq_of_pos
  intro p h₁ h₂
  obtain ⟨j, rfl⟩ : ∃ j, p = j + 1 := ⟨p - 1, by omega⟩
  rw [pos_not _ h₁ h₂]
  have hj : j < T.length := by omega
  obtain ⟨h₃, h₄⟩ := hb T[j] (List.getElem_mem hj)
  rw [pos_permute_of_length _ T hT j hj, pos_permute_of_length _ T hT j hj, pos_not _ h₃ h₄]

theorem rotl_toNat (s : BitVec n) (k : Nat) :
    (rotl s k).toNat = ((s.toNat <<< k) ||| (s.toNat >>> (n - k))) % 2 ^ n := by
  have h : s.toNat >>> (n - k) < 2 ^ n := Nat.lt_of_le_of_lt (Nat.shiftRight_le _ _) s.isLt
  simp only [rotl, BitVec.toNat_or, BitVec.toNat_shiftLeft, BitVec.toNat_ushiftRight]
  rw [Nat.or_mod_two_pow, Nat.mod_eq_of_lt h]

theorem pos_rotl (s : BitVec n) {k p : Nat} (hk : k ≤ n) (h₁ : 1 ≤ p) (h₂ : p ≤ n) :
    pos (rotl s k) p = pos s (if p + k ≤ n then p + k else p + k - n) := by
  simp only [pos_eq, rotl, BitVec.getLsbD_or, BitVec.getLsbD_shiftLeft, BitVec.getLsbD_ushiftRight]
  split
  · rename_i h
    have h₃ : n - p < n := by omega
    have h₄ : ¬(n - p < k) := by omega
    have h₆ : n - p - k = n - (p + k) := by omega
    simp only [h₃, h₄, decide_true, decide_false, Bool.not_false, Bool.true_and, h₆]
    have h₇ : n ≤ n - k + (n - p) := by omega
    rw [BitVec.getLsbD_of_ge _ _ h₇, Bool.or_false]
  · rename_i h
    have h₄ : n - p < k := by omega
    simp only [h₄, decide_true, Bool.not_true, Bool.and_false, Bool.false_and, Bool.false_or]
    congr 1
    omega

theorem rotl_zero (s : BitVec n) : rotl s 0 = s := by
  apply eq_of_pos
  intro p h₁ h₂
  rw [pos_rotl s (Nat.zero_le _) h₁ h₂, if_pos (by omega), Nat.add_zero]

theorem rotl_full (s : BitVec n) : rotl s n = s := by
  apply eq_of_pos
  intro p h₁ h₂
  rw [pos_rotl s (Nat.le_refl _) h₁ h₂, if_neg (by omega)]
  congr 1
  omega

/-- Rotations add up, within one turn (41_key_schedule.md R164). -/
theorem rotl_rotl (s : BitVec n) {j k : Nat} (h : j + k ≤ n) : rotl (rotl s j) k = rotl s (j + k) := by
  apply eq_of_pos
  intro p h₁ h₂
  rw [pos_rotl _ (by omega) h₁ h₂, pos_rotl s h h₁ h₂]
  split
  · rw [pos_rotl s (by omega) (by omega) (by omega)]
    congr 1
    split <;> split <;> omega
  · rw [pos_rotl s (by omega) (by omega) (by omega)]
    congr 1
    split <;> split <;> omega

theorem rotl_not (s : BitVec n) {k : Nat} (hk : k ≤ n) : rotl (~~~s) k = ~~~(rotl s k) := by
  apply eq_of_pos
  intro p h₁ h₂
  rw [pos_not _ h₁ h₂, pos_rotl _ hk h₁ h₂, pos_rotl _ hk h₁ h₂]
  split
  · exact pos_not s (by omega) (by omega)
  · exact pos_not s (by omega) (by omega)

end Sys2Proof.Machine
end

