-- ==== Sys2Proof/Laws/Memory.lean ====
section
/-! SUPPORT. The laws of a buffer: what a write changes, and that every operation keeps the canonical form. -/

namespace Sys2Proof.Machine

variable {w : Nat}

@[simp] theorem Memory.read_nil (i : Nat) : Memory.read (w := w) [] i = none := rfl

@[simp] theorem Memory.written_nil (i : Nat) : Memory.written (w := w) [] i = false := rfl

@[simp] theorem Memory.wf_nil : Memory.wf (w := w) [] = true := rfl

theorem Memory.read_write_same (m : Memory w) (i : Nat) (v : BitVec w) : (Memory.write m i v).read i = some v := by
  induction m with
  | nil => simp [Memory.write, Memory.read]
  | cons c m ih =>
    obtain ⟨a, u⟩ := c
    simp only [Memory.write]
    split
    · simp [Memory.read]
    · split
      · simp [Memory.read]
      · simp [Memory.read, *]

theorem Memory.read_write_other (m : Memory w) {i j : Nat} (v : BitVec w) (h : i ≠ j) :
    (Memory.write m i v).read j = m.read j := by
  induction m with
  | nil => simp [Memory.write, Memory.read, h]
  | cons c m ih =>
    obtain ⟨a, u⟩ := c
    simp only [Memory.write]
    split
    · simp [Memory.read, h]
    · split
      · rename_i h₁ h₂
        subst h₂
        simp [Memory.read, h]
      · simp [Memory.read, ih]

theorem Memory.read_write (m : Memory w) (i j : Nat) (v : BitVec w) :
    (Memory.write m i v).read j = if i = j then some v else m.read j := by
  split
  · rename_i h
    subst h
    exact Memory.read_write_same m i v
  · rename_i h
    exact Memory.read_write_other m v h

theorem Memory.written_write (m : Memory w) (i j : Nat) (v : BitVec w) :
    (Memory.write m i v).written j = (decide (i = j) || m.written j) := by
  unfold Memory.written
  rw [Memory.read_write]
  split <;> simp [*]

/-- The first index of a written buffer is the written one or the old first one. -/
theorem Memory.wf_cons_write (m : Memory w) {a i : Nat} (u v : BitVec w) (hai : a < i)
    (h : Memory.wf ((a, u) :: m) = true) (hm : Memory.wf (Memory.write m i v) = true) :
    Memory.wf ((a, u) :: Memory.write m i v) = true := by
  cases m with
  | nil => simp [Memory.write, Memory.wf, hai]
  | cons c m =>
    obtain ⟨b, x⟩ := c
    have hab : a < b := by
      simp only [Memory.wf, Bool.and_eq_true, decide_eq_true_eq] at h
      exact h.1
    simp only [Memory.write] at hm ⊢
    split
    · rename_i hib
      simp only [hib, if_true] at hm
      simp [Memory.wf, hai] at hm ⊢
      exact hm
    · split
      · rename_i h₁ h₂
        subst h₂
        rw [if_neg h₁, if_pos rfl] at hm
        simp only [Memory.wf, Bool.and_eq_true, decide_eq_true_eq]
        exact ⟨hab, hm⟩
      · rename_i h₁ h₂
        rw [if_neg h₁, if_neg h₂] at hm
        simp only [Memory.wf, Bool.and_eq_true, decide_eq_true_eq]
        exact ⟨hab, hm⟩

theorem Memory.wf_tail {a : Nat} {u : BitVec w} {m : Memory w} (h : Memory.wf ((a, u) :: m) = true) : Memory.wf m = true := by
  cases m with
  | nil => rfl
  | cons c m =>
    simp only [Memory.wf, Bool.and_eq_true] at h
    exact h.2

theorem Memory.wf_write (m : Memory w) (i : Nat) (v : BitVec w) (h : Memory.wf m = true) : Memory.wf (Memory.write m i v) = true := by
  induction m with
  | nil => rfl
  | cons c m ih =>
    obtain ⟨a, u⟩ := c
    have htail := Memory.wf_tail h
    simp only [Memory.write]
    split
    · rename_i hia
      simp only [Memory.wf, Bool.and_eq_true, decide_eq_true_eq]
      exact ⟨hia, h⟩
    · split
      · rename_i h₁ h₂
        subst h₂
        cases m with
        | nil => rfl
        | cons d m =>
          simp only [Memory.wf, Bool.and_eq_true, decide_eq_true_eq] at h ⊢
          exact h
      · exact Memory.wf_cons_write m u v (by omega) h (ih htail)

theorem Memory.wf_writeFrom (m : Memory w) (i : Nat) (vs : List (BitVec w)) (h : Memory.wf m = true) :
    Memory.wf (Memory.writeFrom m i vs) = true := by
  induction vs generalizing m i with
  | nil => exact h
  | cons v vs ih => exact ih _ _ (Memory.wf_write m i v h)

/-- What a list of writes leaves: the list's values from `i` on, and the old element everywhere else. -/
theorem Memory.read_writeFrom (m : Memory w) (i j : Nat) (vs : List (BitVec w)) :
    (Memory.writeFrom m i vs).read j = if i ≤ j ∧ j < i + vs.length then vs[j - i]? else m.read j := by
  induction vs generalizing m i with
  | nil =>
    have : ¬(i ≤ j ∧ j < i + 0) := by omega
    rw [List.length_nil, if_neg this]
    rfl
  | cons v vs ih =>
    simp only [Memory.writeFrom, ih, Memory.read_write, List.length_cons]
    by_cases hij : i = j
    · subst hij
      rw [if_neg (by omega), if_pos rfl, if_pos (by omega)]
      simp
    · by_cases h : i + 1 ≤ j ∧ j < i + 1 + vs.length
      · rw [if_pos h, if_pos (by omega)]
        have : j - i = (j - (i + 1)) + 1 := by omega
        rw [this, List.getElem?_cons_succ]
      · rw [if_neg h, if_neg hij, if_neg (by omega)]

theorem Memory.written_writeFrom (m : Memory w) (i j : Nat) (vs : List (BitVec w)) :
    (Memory.writeFrom m i vs).written j = (decide (i ≤ j ∧ j < i + vs.length) || m.written j) := by
  unfold Memory.written
  rw [Memory.read_writeFrom]
  split
  · rename_i h
    have : j - i < vs.length := by omega
    simp [h, List.getElem?_eq_getElem this]
  · rename_i h
    simp [h]

end Sys2Proof.Machine
end

