-- ==== Sys2Proof/Laws/State.lean ====
section
/-! SUPPORT. What each named update does to each field of the state, one lemma a field, true by definition. -/

namespace Sys2Proof.Machine

@[simp] theorem State.failed_cmd (s : State) (e : CmdError) : (s.failed e).cmd = s.cmd := rfl
@[simp] theorem State.failed_status (s : State) (e : CmdError) : (s.failed e).status = Status.recordError e s.lastOpOfCmd := rfl
@[simp] theorem State.failed_key (s : State) (e : CmdError) : (s.failed e).key = s.key := rfl
@[simp] theorem State.failed_keyLen (s : State) (e : CmdError) : (s.failed e).keyLen = s.keyLen := rfl
@[simp] theorem State.failed_a (s : State) (e : CmdError) : (s.failed e).a = s.a := rfl
@[simp] theorem State.failed_aLen (s : State) (e : CmdError) : (s.failed e).aLen = s.aLen := rfl
@[simp] theorem State.failed_b (s : State) (e : CmdError) : (s.failed e).b = s.b := rfl
@[simp] theorem State.failed_bLen (s : State) (e : CmdError) : (s.failed e).bLen = s.bLen := rfl
@[simp] theorem State.failed_y (s : State) (e : CmdError) : (s.failed e).y = s.y := rfl
@[simp] theorem State.failed_yLen (s : State) (e : CmdError) : (s.failed e).yLen = s.yLen := rfl
@[simp] theorem State.failed_skw (s : State) (e : CmdError) : (s.failed e).skw = s.skw := rfl
@[simp] theorem State.failed_sk (s : State) (e : CmdError) : (s.failed e).sk = s.sk := rfl
@[simp] theorem State.failed_ptabLen (s : State) (e : CmdError) : (s.failed e).ptabLen = s.ptabLen := rfl
@[simp] theorem State.failed_ptab (s : State) (e : CmdError) : (s.failed e).ptab = s.ptab := rfl
@[simp] theorem State.failed_msgInLen (s : State) (e : CmdError) : (s.failed e).msgInLen = s.msgInLen := rfl
@[simp] theorem State.failed_msgOutLen (s : State) (e : CmdError) : (s.failed e).msgOutLen = s.msgOutLen := rfl
@[simp] theorem State.failed_caps (s : State) (e : CmdError) : (s.failed e).caps = s.caps := rfl
@[simp] theorem State.failed_min (s : State) (e : CmdError) : (s.failed e).min = s.min := rfl
@[simp] theorem State.failed_mout (s : State) (e : CmdError) : (s.failed e).mout = s.mout := rfl
@[simp] theorem State.failed_pending (s : State) (e : CmdError) : (s.failed e).pending = s.pending := rfl
@[simp] theorem State.failed_readData (s : State) (e : CmdError) : (s.failed e).readData = s.readData := rfl

@[simp] theorem State.succeeded_cmd (s : State) : (s.succeeded).cmd = s.cmd := rfl
@[simp] theorem State.succeeded_status (s : State) : (s.succeeded).status = s.status.recordSuccess s.lastOpOfCmd := rfl
@[simp] theorem State.succeeded_key (s : State) : (s.succeeded).key = s.key := rfl
@[simp] theorem State.succeeded_keyLen (s : State) : (s.succeeded).keyLen = s.keyLen := rfl
@[simp] theorem State.succeeded_a (s : State) : (s.succeeded).a = s.a := rfl
@[simp] theorem State.succeeded_aLen (s : State) : (s.succeeded).aLen = s.aLen := rfl
@[simp] theorem State.succeeded_b (s : State) : (s.succeeded).b = s.b := rfl
@[simp] theorem State.succeeded_bLen (s : State) : (s.succeeded).bLen = s.bLen := rfl
@[simp] theorem State.succeeded_y (s : State) : (s.succeeded).y = s.y := rfl
@[simp] theorem State.succeeded_yLen (s : State) : (s.succeeded).yLen = s.yLen := rfl
@[simp] theorem State.succeeded_skw (s : State) : (s.succeeded).skw = s.skw := rfl
@[simp] theorem State.succeeded_sk (s : State) : (s.succeeded).sk = s.sk := rfl
@[simp] theorem State.succeeded_ptabLen (s : State) : (s.succeeded).ptabLen = s.ptabLen := rfl
@[simp] theorem State.succeeded_ptab (s : State) : (s.succeeded).ptab = s.ptab := rfl
@[simp] theorem State.succeeded_msgInLen (s : State) : (s.succeeded).msgInLen = s.msgInLen := rfl
@[simp] theorem State.succeeded_msgOutLen (s : State) : (s.succeeded).msgOutLen = s.msgOutLen := rfl
@[simp] theorem State.succeeded_caps (s : State) : (s.succeeded).caps = s.caps := rfl
@[simp] theorem State.succeeded_min (s : State) : (s.succeeded).min = s.min := rfl
@[simp] theorem State.succeeded_mout (s : State) : (s.succeeded).mout = s.mout := rfl
@[simp] theorem State.succeeded_pending (s : State) : (s.succeeded).pending = s.pending := rfl
@[simp] theorem State.succeeded_readData (s : State) : (s.succeeded).readData = s.readData := rfl

@[simp] theorem State.setCmd_cmd (s : State) (w : Word) : (s.setCmd w).cmd = w := rfl
@[simp] theorem State.setCmd_status (s : State) (w : Word) : (s.setCmd w).status = s.status := rfl
@[simp] theorem State.setCmd_key (s : State) (w : Word) : (s.setCmd w).key = s.key := rfl
@[simp] theorem State.setCmd_keyLen (s : State) (w : Word) : (s.setCmd w).keyLen = s.keyLen := rfl
@[simp] theorem State.setCmd_a (s : State) (w : Word) : (s.setCmd w).a = s.a := rfl
@[simp] theorem State.setCmd_aLen (s : State) (w : Word) : (s.setCmd w).aLen = s.aLen := rfl
@[simp] theorem State.setCmd_b (s : State) (w : Word) : (s.setCmd w).b = s.b := rfl
@[simp] theorem State.setCmd_bLen (s : State) (w : Word) : (s.setCmd w).bLen = s.bLen := rfl
@[simp] theorem State.setCmd_y (s : State) (w : Word) : (s.setCmd w).y = s.y := rfl
@[simp] theorem State.setCmd_yLen (s : State) (w : Word) : (s.setCmd w).yLen = s.yLen := rfl
@[simp] theorem State.setCmd_skw (s : State) (w : Word) : (s.setCmd w).skw = s.skw := rfl
@[simp] theorem State.setCmd_sk (s : State) (w : Word) : (s.setCmd w).sk = s.sk := rfl
@[simp] theorem State.setCmd_ptabLen (s : State) (w : Word) : (s.setCmd w).ptabLen = s.ptabLen := rfl
@[simp] theorem State.setCmd_ptab (s : State) (w : Word) : (s.setCmd w).ptab = s.ptab := rfl
@[simp] theorem State.setCmd_msgInLen (s : State) (w : Word) : (s.setCmd w).msgInLen = s.msgInLen := rfl
@[simp] theorem State.setCmd_msgOutLen (s : State) (w : Word) : (s.setCmd w).msgOutLen = s.msgOutLen := rfl
@[simp] theorem State.setCmd_caps (s : State) (w : Word) : (s.setCmd w).caps = s.caps := rfl
@[simp] theorem State.setCmd_min (s : State) (w : Word) : (s.setCmd w).min = s.min := rfl
@[simp] theorem State.setCmd_mout (s : State) (w : Word) : (s.setCmd w).mout = s.mout := rfl
@[simp] theorem State.setCmd_pending (s : State) (w : Word) : (s.setCmd w).pending = s.pending := rfl
@[simp] theorem State.setCmd_readData (s : State) (w : Word) : (s.setCmd w).readData = s.readData := rfl

@[simp] theorem State.setPending_cmd (s : State) (l : List Access) : (s.setPending l).cmd = s.cmd := rfl
@[simp] theorem State.setPending_status (s : State) (l : List Access) : (s.setPending l).status = s.status := rfl
@[simp] theorem State.setPending_key (s : State) (l : List Access) : (s.setPending l).key = s.key := rfl
@[simp] theorem State.setPending_keyLen (s : State) (l : List Access) : (s.setPending l).keyLen = s.keyLen := rfl
@[simp] theorem State.setPending_a (s : State) (l : List Access) : (s.setPending l).a = s.a := rfl
@[simp] theorem State.setPending_aLen (s : State) (l : List Access) : (s.setPending l).aLen = s.aLen := rfl
@[simp] theorem State.setPending_b (s : State) (l : List Access) : (s.setPending l).b = s.b := rfl
@[simp] theorem State.setPending_bLen (s : State) (l : List Access) : (s.setPending l).bLen = s.bLen := rfl
@[simp] theorem State.setPending_y (s : State) (l : List Access) : (s.setPending l).y = s.y := rfl
@[simp] theorem State.setPending_yLen (s : State) (l : List Access) : (s.setPending l).yLen = s.yLen := rfl
@[simp] theorem State.setPending_skw (s : State) (l : List Access) : (s.setPending l).skw = s.skw := rfl
@[simp] theorem State.setPending_sk (s : State) (l : List Access) : (s.setPending l).sk = s.sk := rfl
@[simp] theorem State.setPending_ptabLen (s : State) (l : List Access) : (s.setPending l).ptabLen = s.ptabLen := rfl
@[simp] theorem State.setPending_ptab (s : State) (l : List Access) : (s.setPending l).ptab = s.ptab := rfl
@[simp] theorem State.setPending_msgInLen (s : State) (l : List Access) : (s.setPending l).msgInLen = s.msgInLen := rfl
@[simp] theorem State.setPending_msgOutLen (s : State) (l : List Access) : (s.setPending l).msgOutLen = s.msgOutLen := rfl
@[simp] theorem State.setPending_caps (s : State) (l : List Access) : (s.setPending l).caps = s.caps := rfl
@[simp] theorem State.setPending_min (s : State) (l : List Access) : (s.setPending l).min = s.min := rfl
@[simp] theorem State.setPending_mout (s : State) (l : List Access) : (s.setPending l).mout = s.mout := rfl
@[simp] theorem State.setPending_pending (s : State) (l : List Access) : (s.setPending l).pending = l := rfl
@[simp] theorem State.setPending_readData (s : State) (l : List Access) : (s.setPending l).readData = s.readData := rfl

@[simp] theorem State.setRead_cmd (s : State) (v : Word) : (s.setRead v).cmd = s.cmd := rfl
@[simp] theorem State.setRead_status (s : State) (v : Word) : (s.setRead v).status = s.status := rfl
@[simp] theorem State.setRead_key (s : State) (v : Word) : (s.setRead v).key = s.key := rfl
@[simp] theorem State.setRead_keyLen (s : State) (v : Word) : (s.setRead v).keyLen = s.keyLen := rfl
@[simp] theorem State.setRead_a (s : State) (v : Word) : (s.setRead v).a = s.a := rfl
@[simp] theorem State.setRead_aLen (s : State) (v : Word) : (s.setRead v).aLen = s.aLen := rfl
@[simp] theorem State.setRead_b (s : State) (v : Word) : (s.setRead v).b = s.b := rfl
@[simp] theorem State.setRead_bLen (s : State) (v : Word) : (s.setRead v).bLen = s.bLen := rfl
@[simp] theorem State.setRead_y (s : State) (v : Word) : (s.setRead v).y = s.y := rfl
@[simp] theorem State.setRead_yLen (s : State) (v : Word) : (s.setRead v).yLen = s.yLen := rfl
@[simp] theorem State.setRead_skw (s : State) (v : Word) : (s.setRead v).skw = s.skw := rfl
@[simp] theorem State.setRead_sk (s : State) (v : Word) : (s.setRead v).sk = s.sk := rfl
@[simp] theorem State.setRead_ptabLen (s : State) (v : Word) : (s.setRead v).ptabLen = s.ptabLen := rfl
@[simp] theorem State.setRead_ptab (s : State) (v : Word) : (s.setRead v).ptab = s.ptab := rfl
@[simp] theorem State.setRead_msgInLen (s : State) (v : Word) : (s.setRead v).msgInLen = s.msgInLen := rfl
@[simp] theorem State.setRead_msgOutLen (s : State) (v : Word) : (s.setRead v).msgOutLen = s.msgOutLen := rfl
@[simp] theorem State.setRead_caps (s : State) (v : Word) : (s.setRead v).caps = s.caps := rfl
@[simp] theorem State.setRead_min (s : State) (v : Word) : (s.setRead v).min = s.min := rfl
@[simp] theorem State.setRead_mout (s : State) (v : Word) : (s.setRead v).mout = s.mout := rfl
@[simp] theorem State.setRead_pending (s : State) (v : Word) : (s.setRead v).pending = s.pending := rfl
@[simp] theorem State.setRead_readData (s : State) (v : Word) : (s.setRead v).readData = some v := rfl

@[simp] theorem State.setMin_cmd (s : State) (i : Nat) (v : Word) : (s.setMin i v).cmd = s.cmd := rfl
@[simp] theorem State.setMin_status (s : State) (i : Nat) (v : Word) : (s.setMin i v).status = s.status := rfl
@[simp] theorem State.setMin_key (s : State) (i : Nat) (v : Word) : (s.setMin i v).key = s.key := rfl
@[simp] theorem State.setMin_keyLen (s : State) (i : Nat) (v : Word) : (s.setMin i v).keyLen = s.keyLen := rfl
@[simp] theorem State.setMin_a (s : State) (i : Nat) (v : Word) : (s.setMin i v).a = s.a := rfl
@[simp] theorem State.setMin_aLen (s : State) (i : Nat) (v : Word) : (s.setMin i v).aLen = s.aLen := rfl
@[simp] theorem State.setMin_b (s : State) (i : Nat) (v : Word) : (s.setMin i v).b = s.b := rfl
@[simp] theorem State.setMin_bLen (s : State) (i : Nat) (v : Word) : (s.setMin i v).bLen = s.bLen := rfl
@[simp] theorem State.setMin_y (s : State) (i : Nat) (v : Word) : (s.setMin i v).y = s.y := rfl
@[simp] theorem State.setMin_yLen (s : State) (i : Nat) (v : Word) : (s.setMin i v).yLen = s.yLen := rfl
@[simp] theorem State.setMin_skw (s : State) (i : Nat) (v : Word) : (s.setMin i v).skw = s.skw := rfl
@[simp] theorem State.setMin_sk (s : State) (i : Nat) (v : Word) : (s.setMin i v).sk = s.sk := rfl
@[simp] theorem State.setMin_ptabLen (s : State) (i : Nat) (v : Word) : (s.setMin i v).ptabLen = s.ptabLen := rfl
@[simp] theorem State.setMin_ptab (s : State) (i : Nat) (v : Word) : (s.setMin i v).ptab = s.ptab := rfl
@[simp] theorem State.setMin_msgInLen (s : State) (i : Nat) (v : Word) : (s.setMin i v).msgInLen = s.msgInLen := rfl
@[simp] theorem State.setMin_msgOutLen (s : State) (i : Nat) (v : Word) : (s.setMin i v).msgOutLen = s.msgOutLen := rfl
@[simp] theorem State.setMin_caps (s : State) (i : Nat) (v : Word) : (s.setMin i v).caps = s.caps := rfl
@[simp] theorem State.setMin_min (s : State) (i : Nat) (v : Word) : (s.setMin i v).min = Memory.write s.min i (v.setWidth 32) := rfl
@[simp] theorem State.setMin_mout (s : State) (i : Nat) (v : Word) : (s.setMin i v).mout = s.mout := rfl
@[simp] theorem State.setMin_pending (s : State) (i : Nat) (v : Word) : (s.setMin i v).pending = s.pending := rfl
@[simp] theorem State.setMin_readData (s : State) (i : Nat) (v : Word) : (s.setMin i v).readData = s.readData := rfl

@[simp] theorem State.setY_cmd (s : State) (v : BitSeq) : (s.setY v).cmd = s.cmd := rfl
@[simp] theorem State.setY_status (s : State) (v : BitSeq) : (s.setY v).status = s.status := rfl
@[simp] theorem State.setY_key (s : State) (v : BitSeq) : (s.setY v).key = s.key := rfl
@[simp] theorem State.setY_keyLen (s : State) (v : BitSeq) : (s.setY v).keyLen = s.keyLen := rfl
@[simp] theorem State.setY_a (s : State) (v : BitSeq) : (s.setY v).a = s.a := rfl
@[simp] theorem State.setY_aLen (s : State) (v : BitSeq) : (s.setY v).aLen = s.aLen := rfl
@[simp] theorem State.setY_b (s : State) (v : BitSeq) : (s.setY v).b = s.b := rfl
@[simp] theorem State.setY_bLen (s : State) (v : BitSeq) : (s.setY v).bLen = s.bLen := rfl
@[simp] theorem State.setY_y (s : State) (v : BitSeq) : (s.setY v).y = v.bits.setWidth 64 := rfl
@[simp] theorem State.setY_yLen (s : State) (v : BitSeq) : (s.setY v).yLen = BitVec.ofNat 8 v.len := rfl
@[simp] theorem State.setY_skw (s : State) (v : BitSeq) : (s.setY v).skw = s.skw := rfl
@[simp] theorem State.setY_sk (s : State) (v : BitSeq) : (s.setY v).sk = s.sk := rfl
@[simp] theorem State.setY_ptabLen (s : State) (v : BitSeq) : (s.setY v).ptabLen = s.ptabLen := rfl
@[simp] theorem State.setY_ptab (s : State) (v : BitSeq) : (s.setY v).ptab = s.ptab := rfl
@[simp] theorem State.setY_msgInLen (s : State) (v : BitSeq) : (s.setY v).msgInLen = s.msgInLen := rfl
@[simp] theorem State.setY_msgOutLen (s : State) (v : BitSeq) : (s.setY v).msgOutLen = s.msgOutLen := rfl
@[simp] theorem State.setY_caps (s : State) (v : BitSeq) : (s.setY v).caps = s.caps := rfl
@[simp] theorem State.setY_min (s : State) (v : BitSeq) : (s.setY v).min = s.min := rfl
@[simp] theorem State.setY_mout (s : State) (v : BitSeq) : (s.setY v).mout = s.mout := rfl
@[simp] theorem State.setY_pending (s : State) (v : BitSeq) : (s.setY v).pending = s.pending := rfl
@[simp] theorem State.setY_readData (s : State) (v : BitSeq) : (s.setY v).readData = s.readData := rfl

@[simp] theorem State.setMout_cmd (s : State) (o : List Byte) : (s.setMout o).cmd = s.cmd := rfl
@[simp] theorem State.setMout_status (s : State) (o : List Byte) : (s.setMout o).status = s.status := rfl
@[simp] theorem State.setMout_key (s : State) (o : List Byte) : (s.setMout o).key = s.key := rfl
@[simp] theorem State.setMout_keyLen (s : State) (o : List Byte) : (s.setMout o).keyLen = s.keyLen := rfl
@[simp] theorem State.setMout_a (s : State) (o : List Byte) : (s.setMout o).a = s.a := rfl
@[simp] theorem State.setMout_aLen (s : State) (o : List Byte) : (s.setMout o).aLen = s.aLen := rfl
@[simp] theorem State.setMout_b (s : State) (o : List Byte) : (s.setMout o).b = s.b := rfl
@[simp] theorem State.setMout_bLen (s : State) (o : List Byte) : (s.setMout o).bLen = s.bLen := rfl
@[simp] theorem State.setMout_y (s : State) (o : List Byte) : (s.setMout o).y = s.y := rfl
@[simp] theorem State.setMout_yLen (s : State) (o : List Byte) : (s.setMout o).yLen = s.yLen := rfl
@[simp] theorem State.setMout_skw (s : State) (o : List Byte) : (s.setMout o).skw = s.skw := rfl
@[simp] theorem State.setMout_sk (s : State) (o : List Byte) : (s.setMout o).sk = s.sk := rfl
@[simp] theorem State.setMout_ptabLen (s : State) (o : List Byte) : (s.setMout o).ptabLen = s.ptabLen := rfl
@[simp] theorem State.setMout_ptab (s : State) (o : List Byte) : (s.setMout o).ptab = s.ptab := rfl
@[simp] theorem State.setMout_msgInLen (s : State) (o : List Byte) : (s.setMout o).msgInLen = s.msgInLen := rfl
@[simp] theorem State.setMout_msgOutLen (s : State) (o : List Byte) : (s.setMout o).msgOutLen = BitVec.ofNat 32 o.length := rfl
@[simp] theorem State.setMout_caps (s : State) (o : List Byte) : (s.setMout o).caps = s.caps := rfl
@[simp] theorem State.setMout_min (s : State) (o : List Byte) : (s.setMout o).min = s.min := rfl
@[simp] theorem State.setMout_mout (s : State) (o : List Byte) : (s.setMout o).mout = Memory.writeFrom s.mout 0 o := rfl
@[simp] theorem State.setMout_pending (s : State) (o : List Byte) : (s.setMout o).pending = s.pending := rfl
@[simp] theorem State.setMout_readData (s : State) (o : List Byte) : (s.setMout o).readData = s.readData := rfl

@[simp] theorem State.setSchedule_cmd (s : State) (key : Word) : (s.setSchedule key).cmd = s.cmd := rfl
@[simp] theorem State.setSchedule_status (s : State) (key : Word) : (s.setSchedule key).status = s.status := rfl
@[simp] theorem State.setSchedule_key (s : State) (key : Word) : (s.setSchedule key).key = s.key := rfl
@[simp] theorem State.setSchedule_keyLen (s : State) (key : Word) : (s.setSchedule key).keyLen = s.keyLen := rfl
@[simp] theorem State.setSchedule_a (s : State) (key : Word) : (s.setSchedule key).a = s.a := rfl
@[simp] theorem State.setSchedule_aLen (s : State) (key : Word) : (s.setSchedule key).aLen = s.aLen := rfl
@[simp] theorem State.setSchedule_b (s : State) (key : Word) : (s.setSchedule key).b = s.b := rfl
@[simp] theorem State.setSchedule_bLen (s : State) (key : Word) : (s.setSchedule key).bLen = s.bLen := rfl
@[simp] theorem State.setSchedule_y (s : State) (key : Word) : (s.setSchedule key).y = s.y := rfl
@[simp] theorem State.setSchedule_yLen (s : State) (key : Word) : (s.setSchedule key).yLen = s.yLen := rfl
@[simp] theorem State.setSchedule_skw (s : State) (key : Word) : (s.setSchedule key).skw = 0xFFFF := rfl
@[simp] theorem State.setSchedule_sk (s : State) (key : Word) : (s.setSchedule key).sk = keyScheduleFile key := rfl
@[simp] theorem State.setSchedule_ptabLen (s : State) (key : Word) : (s.setSchedule key).ptabLen = s.ptabLen := rfl
@[simp] theorem State.setSchedule_ptab (s : State) (key : Word) : (s.setSchedule key).ptab = s.ptab := rfl
@[simp] theorem State.setSchedule_msgInLen (s : State) (key : Word) : (s.setSchedule key).msgInLen = s.msgInLen := rfl
@[simp] theorem State.setSchedule_msgOutLen (s : State) (key : Word) : (s.setSchedule key).msgOutLen = s.msgOutLen := rfl
@[simp] theorem State.setSchedule_caps (s : State) (key : Word) : (s.setSchedule key).caps = s.caps := rfl
@[simp] theorem State.setSchedule_min (s : State) (key : Word) : (s.setSchedule key).min = s.min := rfl
@[simp] theorem State.setSchedule_mout (s : State) (key : Word) : (s.setSchedule key).mout = s.mout := rfl
@[simp] theorem State.setSchedule_pending (s : State) (key : Word) : (s.setSchedule key).pending = s.pending := rfl
@[simp] theorem State.setSchedule_readData (s : State) (key : Word) : (s.setSchedule key).readData = s.readData := rfl

@[simp] theorem State.writeSk_cmd (s : State) (r : Fin 16) (v : Word) : (s.writeSk r v).cmd = s.cmd := rfl
@[simp] theorem State.writeSk_status (s : State) (r : Fin 16) (v : Word) : (s.writeSk r v).status = s.status := rfl
@[simp] theorem State.writeSk_key (s : State) (r : Fin 16) (v : Word) : (s.writeSk r v).key = s.key := rfl
@[simp] theorem State.writeSk_keyLen (s : State) (r : Fin 16) (v : Word) : (s.writeSk r v).keyLen = s.keyLen := rfl
@[simp] theorem State.writeSk_a (s : State) (r : Fin 16) (v : Word) : (s.writeSk r v).a = s.a := rfl
@[simp] theorem State.writeSk_aLen (s : State) (r : Fin 16) (v : Word) : (s.writeSk r v).aLen = s.aLen := rfl
@[simp] theorem State.writeSk_b (s : State) (r : Fin 16) (v : Word) : (s.writeSk r v).b = s.b := rfl
@[simp] theorem State.writeSk_bLen (s : State) (r : Fin 16) (v : Word) : (s.writeSk r v).bLen = s.bLen := rfl
@[simp] theorem State.writeSk_y (s : State) (r : Fin 16) (v : Word) : (s.writeSk r v).y = s.y := rfl
@[simp] theorem State.writeSk_yLen (s : State) (r : Fin 16) (v : Word) : (s.writeSk r v).yLen = s.yLen := rfl
@[simp] theorem State.writeSk_skw (s : State) (r : Fin 16) (v : Word) : (s.writeSk r v).skw = s.skw ||| (1#16 <<< r.val) := rfl
@[simp] theorem State.writeSk_sk (s : State) (r : Fin 16) (v : Word) : (s.writeSk r v).sk = s.sk.set r (v.setWidth 48) := rfl
@[simp] theorem State.writeSk_ptabLen (s : State) (r : Fin 16) (v : Word) : (s.writeSk r v).ptabLen = s.ptabLen := rfl
@[simp] theorem State.writeSk_ptab (s : State) (r : Fin 16) (v : Word) : (s.writeSk r v).ptab = s.ptab := rfl
@[simp] theorem State.writeSk_msgInLen (s : State) (r : Fin 16) (v : Word) : (s.writeSk r v).msgInLen = s.msgInLen := rfl
@[simp] theorem State.writeSk_msgOutLen (s : State) (r : Fin 16) (v : Word) : (s.writeSk r v).msgOutLen = s.msgOutLen := rfl
@[simp] theorem State.writeSk_caps (s : State) (r : Fin 16) (v : Word) : (s.writeSk r v).caps = s.caps := rfl
@[simp] theorem State.writeSk_min (s : State) (r : Fin 16) (v : Word) : (s.writeSk r v).min = s.min := rfl
@[simp] theorem State.writeSk_mout (s : State) (r : Fin 16) (v : Word) : (s.writeSk r v).mout = s.mout := rfl
@[simp] theorem State.writeSk_pending (s : State) (r : Fin 16) (v : Word) : (s.writeSk r v).pending = s.pending := rfl
@[simp] theorem State.writeSk_readData (s : State) (r : Fin 16) (v : Word) : (s.writeSk r v).readData = s.readData := rfl

@[simp] theorem State.writePtab_cmd (s : State) (j : Fin 64) (v : Word) : (s.writePtab j v).cmd = s.cmd := rfl
@[simp] theorem State.writePtab_status (s : State) (j : Fin 64) (v : Word) : (s.writePtab j v).status = s.status := rfl
@[simp] theorem State.writePtab_key (s : State) (j : Fin 64) (v : Word) : (s.writePtab j v).key = s.key := rfl
@[simp] theorem State.writePtab_keyLen (s : State) (j : Fin 64) (v : Word) : (s.writePtab j v).keyLen = s.keyLen := rfl
@[simp] theorem State.writePtab_a (s : State) (j : Fin 64) (v : Word) : (s.writePtab j v).a = s.a := rfl
@[simp] theorem State.writePtab_aLen (s : State) (j : Fin 64) (v : Word) : (s.writePtab j v).aLen = s.aLen := rfl
@[simp] theorem State.writePtab_b (s : State) (j : Fin 64) (v : Word) : (s.writePtab j v).b = s.b := rfl
@[simp] theorem State.writePtab_bLen (s : State) (j : Fin 64) (v : Word) : (s.writePtab j v).bLen = s.bLen := rfl
@[simp] theorem State.writePtab_y (s : State) (j : Fin 64) (v : Word) : (s.writePtab j v).y = s.y := rfl
@[simp] theorem State.writePtab_yLen (s : State) (j : Fin 64) (v : Word) : (s.writePtab j v).yLen = s.yLen := rfl
@[simp] theorem State.writePtab_skw (s : State) (j : Fin 64) (v : Word) : (s.writePtab j v).skw = s.skw := rfl
@[simp] theorem State.writePtab_sk (s : State) (j : Fin 64) (v : Word) : (s.writePtab j v).sk = s.sk := rfl
@[simp] theorem State.writePtab_ptabLen (s : State) (j : Fin 64) (v : Word) : (s.writePtab j v).ptabLen = s.ptabLen := rfl
@[simp] theorem State.writePtab_ptab (s : State) (j : Fin 64) (v : Word) : (s.writePtab j v).ptab = Memory.write s.ptab j (v.setWidth 8) := rfl
@[simp] theorem State.writePtab_msgInLen (s : State) (j : Fin 64) (v : Word) : (s.writePtab j v).msgInLen = s.msgInLen := rfl
@[simp] theorem State.writePtab_msgOutLen (s : State) (j : Fin 64) (v : Word) : (s.writePtab j v).msgOutLen = s.msgOutLen := rfl
@[simp] theorem State.writePtab_caps (s : State) (j : Fin 64) (v : Word) : (s.writePtab j v).caps = s.caps := rfl
@[simp] theorem State.writePtab_min (s : State) (j : Fin 64) (v : Word) : (s.writePtab j v).min = s.min := rfl
@[simp] theorem State.writePtab_mout (s : State) (j : Fin 64) (v : Word) : (s.writePtab j v).mout = s.mout := rfl
@[simp] theorem State.writePtab_pending (s : State) (j : Fin 64) (v : Word) : (s.writePtab j v).pending = s.pending := rfl
@[simp] theorem State.writePtab_readData (s : State) (j : Fin 64) (v : Word) : (s.writePtab j v).readData = s.readData := rfl

@[simp] theorem State.resetCore_cmd (s : State) : s.resetCore.cmd = 0 := rfl
@[simp] theorem State.resetCore_status (s : State) : s.resetCore.status = ⟨false, false, false, 0, 0⟩ := rfl
@[simp] theorem State.resetCore_key (s : State) : s.resetCore.key = 0 := rfl
@[simp] theorem State.resetCore_keyLen (s : State) : s.resetCore.keyLen = 0 := rfl
@[simp] theorem State.resetCore_a (s : State) : s.resetCore.a = 0 := rfl
@[simp] theorem State.resetCore_aLen (s : State) : s.resetCore.aLen = 0 := rfl
@[simp] theorem State.resetCore_b (s : State) : s.resetCore.b = 0 := rfl
@[simp] theorem State.resetCore_bLen (s : State) : s.resetCore.bLen = 0 := rfl
@[simp] theorem State.resetCore_y (s : State) : s.resetCore.y = 0 := rfl
@[simp] theorem State.resetCore_yLen (s : State) : s.resetCore.yLen = 0 := rfl
@[simp] theorem State.resetCore_skw (s : State) : s.resetCore.skw = 0 := rfl
@[simp] theorem State.resetCore_sk (s : State) : s.resetCore.sk = Vector.replicate 16 0 := rfl
@[simp] theorem State.resetCore_ptabLen (s : State) : s.resetCore.ptabLen = 0 := rfl
@[simp] theorem State.resetCore_ptab (s : State) : s.resetCore.ptab = [] := rfl
@[simp] theorem State.resetCore_msgInLen (s : State) : s.resetCore.msgInLen = 0 := rfl
@[simp] theorem State.resetCore_msgOutLen (s : State) : s.resetCore.msgOutLen = 0 := rfl
@[simp] theorem State.resetCore_caps (s : State) : s.resetCore.caps = s.caps := rfl
@[simp] theorem State.resetCore_min (s : State) : s.resetCore.min = [] := rfl
@[simp] theorem State.resetCore_mout (s : State) : s.resetCore.mout = [] := rfl
@[simp] theorem State.resetCore_pending (s : State) : s.resetCore.pending = s.pending := rfl
@[simp] theorem State.resetCore_readData (s : State) : s.resetCore.readData = s.readData := rfl

@[simp] theorem State.reset_cmd : State.reset.cmd = 0 := rfl
@[simp] theorem State.reset_status : State.reset.status = ⟨false, false, false, 0, 0⟩ := rfl
@[simp] theorem State.reset_key : State.reset.key = 0 := rfl
@[simp] theorem State.reset_keyLen : State.reset.keyLen = 0 := rfl
@[simp] theorem State.reset_a : State.reset.a = 0 := rfl
@[simp] theorem State.reset_aLen : State.reset.aLen = 0 := rfl
@[simp] theorem State.reset_b : State.reset.b = 0 := rfl
@[simp] theorem State.reset_bLen : State.reset.bLen = 0 := rfl
@[simp] theorem State.reset_y : State.reset.y = 0 := rfl
@[simp] theorem State.reset_yLen : State.reset.yLen = 0 := rfl
@[simp] theorem State.reset_skw : State.reset.skw = 0 := rfl
@[simp] theorem State.reset_sk : State.reset.sk = Vector.replicate 16 0 := rfl
@[simp] theorem State.reset_ptabLen : State.reset.ptabLen = 0 := rfl
@[simp] theorem State.reset_ptab : State.reset.ptab = [] := rfl
@[simp] theorem State.reset_msgInLen : State.reset.msgInLen = 0 := rfl
@[simp] theorem State.reset_msgOutLen : State.reset.msgOutLen = 0 := rfl
@[simp] theorem State.reset_caps : State.reset.caps = BitVec.ofNat 32 Config.msgCap := rfl
@[simp] theorem State.reset_min : State.reset.min = [] := rfl
@[simp] theorem State.reset_mout : State.reset.mout = [] := rfl
@[simp] theorem State.reset_pending : State.reset.pending = [] := rfl
@[simp] theorem State.reset_readData : State.reset.readData = none := rfl

@[simp] theorem State.failed_lastOpOfCmd (s : State) (e : CmdError) : (s.failed e).lastOpOfCmd = s.lastOpOfCmd := rfl
@[simp] theorem State.setY_lastOpOfCmd (s : State) (v : BitSeq) : (s.setY v).lastOpOfCmd = s.lastOpOfCmd := rfl
@[simp] theorem State.setMout_lastOpOfCmd (s : State) (o : List Byte) : (s.setMout o).lastOpOfCmd = s.lastOpOfCmd := rfl
@[simp] theorem State.setSchedule_lastOpOfCmd (s : State) (k : Word) : (s.setSchedule k).lastOpOfCmd = s.lastOpOfCmd := rfl
@[simp] theorem State.setCmd_lastOpOfCmd (s : State) (w : Word) : (s.setCmd w).lastOpOfCmd = w.extractLsb' 0 6 := rfl

@[simp] theorem Status.recordError_done (e : CmdError) (op : BitVec 6) : (Status.recordError e op).done = true := rfl
@[simp] theorem Status.recordError_err (e : CmdError) (op : BitVec 6) : (Status.recordError e op).err = true := rfl
@[simp] theorem Status.recordError_errSticky (e : CmdError) (op : BitVec 6) : (Status.recordError e op).errSticky = true := rfl
@[simp] theorem Status.recordError_errCode (e : CmdError) (op : BitVec 6) : (Status.recordError e op).errCode = e.code := rfl
@[simp] theorem Status.recordError_lastOp (e : CmdError) (op : BitVec 6) : (Status.recordError e op).lastOp = op := rfl
@[simp] theorem Status.recordSuccess_done (st : Status) (op : BitVec 6) : (st.recordSuccess op).done = true := rfl
@[simp] theorem Status.recordSuccess_err (st : Status) (op : BitVec 6) : (st.recordSuccess op).err = false := rfl
@[simp] theorem Status.recordSuccess_errSticky (st : Status) (op : BitVec 6) : (st.recordSuccess op).errSticky = st.errSticky := rfl
@[simp] theorem Status.recordSuccess_errCode (st : Status) (op : BitVec 6) : (st.recordSuccess op).errCode = 0 := rfl
@[simp] theorem Status.recordSuccess_lastOp (st : Status) (op : BitVec 6) : (st.recordSuccess op).lastOp = op := rfl

end Sys2Proof.Machine
end

