-- ==== Sys2Proof/Laws/Outcome.lean ====
section
/-! SUPPORT. What the shared operations can do, said once: the operand reads, the checks, and the two ways a command ends. -/

namespace Sys2Proof.Machine

@[simp] theorem failIf_true (e : CmdError) : failIf true e = .error e := rfl

@[simp] theorem failIf_false (e : CmdError) : failIf false e = .ok () := rfl

theorem failIf_of (c : Bool) (e : CmdError) (h : c = true) : failIf c e = .error e := by subst h; rfl

theorem failIf_pass (c : Bool) (e : CmdError) (h : c = false) : failIf c e = .ok () := by subst h; rfl

@[simp] theorem except_ok_bind {α β : Type} (x : α) (f : α → Except CmdError β) :
    ((Except.ok x : Except CmdError α) >>= f) = f x := rfl

@[simp] theorem except_error_bind {α β : Type} (e : CmdError) (f : α → Except CmdError β) :
    ((Except.error e : Except CmdError α) >>= f) = .error e := rfl

@[simp] theorem except_pure {α : Type} (x : α) : (pure x : Except CmdError α) = .ok x := rfl

/-- A computation that ends well did each of its parts well. -/
theorem bind_eq_ok {α β : Type} {x : Except CmdError α} {f : α → Except CmdError β} {b : β} (h : (x >>= f) = .ok b) :
    ∃ a, x = .ok a ∧ f a = .ok b := by
  cases x with
  | error e => exact nomatch h
  | ok a => exact ⟨a, rfl, h⟩

theorem failIf_eq_ok {c : Bool} {e : CmdError} {u : Unit} (h : failIf c e = .ok u) : c = false := by
  cases c with
  | false => rfl
  | true => exact nomatch h

/-- OPND on a register whose length is legal (40_bitseq.md R123). -/
theorem opnd_legal (v : Word) (len : BitVec 8) (h : len.toNat ≤ 64) : opnd v len = .ok ⟨len.toNat, v.setWidth len.toNat⟩ := by
  simp [opnd, Nat.not_lt.mpr h]

/-- OPND on a register whose length is above 64 (40_bitseq.md R123). -/
theorem opnd_tooLong (v : Word) (len : BitVec 8) (h : 64 < len.toNat) : opnd v len = .error .invalidBlockLength := by
  simp [opnd, h]

theorem opnd_eq_ok {v : Word} {len : BitVec 8} {q : BitSeq} (h : opnd v len = .ok q) :
    len.toNat ≤ 64 ∧ q = ⟨len.toNat, v.setWidth len.toNat⟩ := by
  unfold opnd at h
  split at h
  · exact nomatch h
  · rename_i hl
    exact ⟨Nat.not_lt.mp hl, (Except.ok.inj h).symm⟩

theorem opndA_legal (s : State) (h : s.aLen.toNat ≤ 64) : opndA s = .ok ⟨s.aLen.toNat, s.a.setWidth s.aLen.toNat⟩ :=
  opnd_legal s.a s.aLen h

theorem opndA_tooLong (s : State) (h : 64 < s.aLen.toNat) : opndA s = .error .invalidBlockLength := opnd_tooLong s.a s.aLen h

theorem opndB_legal (s : State) (h : s.bLen.toNat ≤ 64) : opndB s = .ok ⟨s.bLen.toNat, s.b.setWidth s.bLen.toNat⟩ :=
  opnd_legal s.b s.bLen h

theorem opndB_tooLong (s : State) (h : 64 < s.bLen.toNat) : opndB s = .error .invalidBlockLength := opnd_tooLong s.b s.bLen h

theorem keyOperand_legal (s : State) (h : s.keyLen.toNat = 64) : keyOperand s = .ok s.key := by simp [keyOperand, h]

theorem keyOperand_illegal (s : State) (h : s.keyLen.toNat ≠ 64) : keyOperand s = .error .invalidKeyLength := by
  simp [keyOperand, h]

theorem scheduleOperand_complete (s : State) (h : s.skw = 0xFFFF) : scheduleOperand s = .ok s.sk.toList := by
  simp [scheduleOperand, h]

theorem scheduleOperand_incomplete (s : State) (h : s.skw ≠ 0xFFFF) : scheduleOperand s = .error .scheduleIncomplete := by
  unfold scheduleOperand
  rw [if_pos]
  exact h

/-- A table that the scan accepts has one entry for each PTAB entry scanned. -/
theorem scanPtab_length {ptab : Memory 8} {n : Nat} {count j : Nat} {T : List Nat} (h : scanPtab ptab n count j = .ok T) :
    T.length = count := by
  induction count generalizing j T with
  | zero =>
    cases h
    rfl
  | succ count ih =>
    simp only [scanPtab] at h
    split at h
    · exact nomatch h
    · split at h
      · exact nomatch h
      · cases hr : scanPtab ptab n count (j + 1) with
        | error e =>
          rw [hr] at h
          exact nomatch h
        | ok T' =>
          rw [hr] at h
          cases h
          simp [ih hr]

theorem tableOperand_length {s : State} {n : Nat} {T : List Nat} (h : tableOperand s n = .ok T) :
    T.length = s.ptabLen.toNat ∧ s.ptabLen.toNat ≤ 64 := by
  unfold tableOperand at h
  split at h
  · exact nomatch h
  · rename_i hl
    exact ⟨scanPtab_length h, Nat.not_lt.mp hl⟩

@[simp] theorem finishY_error (s : State) (e : CmdError) : finishY s (.error e) = .next (s.failed e) := rfl

@[simp] theorem finishY_ok (s : State) (v : BitSeq) : finishY s (.ok v) = .next (s.setY v).succeeded := rfl

@[simp] theorem finishMessage_error (s : State) (e : CmdError) : finishMessage s (.error e) = .next (s.failed e) := rfl

@[simp] theorem finishMessage_ok (s : State) (o : List Byte) : finishMessage s (.ok o) = .next (s.setMout o).succeeded := rfl

/-- Everything a command whose result goes to Y can do at its end. -/
theorem finishY_next {s t : State} {r : Except CmdError BitSeq} (h : finishY s r = .next t) :
    (∃ e, r = .error e ∧ t = s.failed e) ∨ ∃ v, r = .ok v ∧ t = (s.setY v).succeeded := by
  cases r with
  | error e =>
    cases h
    exact .inl ⟨e, rfl, rfl⟩
  | ok v =>
    cases h
    exact .inr ⟨v, rfl, rfl⟩

/-- Everything a command whose result goes to MOUT can do at its end. -/
theorem finishMessage_next {s t : State} {r : Except CmdError (List Byte)} (h : finishMessage s r = .next t) :
    (∃ e, r = .error e ∧ t = s.failed e) ∨ ∃ o, r = .ok o ∧ t = (s.setMout o).succeeded := by
  cases r with
  | error e =>
    cases h
    exact .inl ⟨e, rfl, rfl⟩
  | ok o =>
    cases h
    exact .inr ⟨o, rfl, rfl⟩

/-- Everything DERIVE can do. -/
theorem execDerive_next {s t : State} (h : execDerive s = .next t) :
    (s.keyLen.toNat ≠ 64 ∧ t = s.failed .invalidKeyLength) ∨ (s.keyLen.toNat = 64 ∧ t = (s.setSchedule s.key).succeeded) := by
  unfold execDerive at h
  by_cases hk : s.keyLen.toNat = 64
  · rw [keyOperand_legal s hk] at h
    cases h
    exact .inr ⟨hk, rfl⟩
  · rw [keyOperand_illegal s hk] at h
    cases h
    exact .inl ⟨hk, rfl⟩

end Sys2Proof.Machine
end

