-- ==== Sys2Proof/Laws/Command.lean ====
section
/-! SUPPORT. The inversion of exec: what any command can do to the state, from which frames and invariants follow. -/

namespace Sys2Proof.Machine

theorem permuteA_len {s : State} {max m : Nat} {T : List Nat} {v : BitSeq} (h : permuteA s max m T = .ok v) : v.len = m := by
  obtain ⟨a, -, h⟩ := bind_eq_ok h
  obtain ⟨-, -, h⟩ := bind_eq_ok h
  cases h
  rfl

theorem permResult_len {s : State} {v : BitSeq} (h : permResult s = .ok v) : v.len ≤ 64 := by
  obtain ⟨a, -, h⟩ := bind_eq_ok h
  obtain ⟨T, hT, h⟩ := bind_eq_ok h
  cases h
  have := tableOperand_length hT
  simp only
  omega

theorem rotlResult_len {n : Nat} {s : State} {v : BitSeq} (h : rotlResult n s = .ok v) : v.len ≤ 64 := by
  obtain ⟨-, -, h⟩ := bind_eq_ok h
  obtain ⟨a, ha, h⟩ := bind_eq_ok h
  obtain ⟨-, -, h⟩ := bind_eq_ok h
  cases h
  obtain ⟨hl, rfl⟩ := opnd_eq_ok ha
  exact hl

theorem xorResult_len {s : State} {v : BitSeq} (h : xorResult s = .ok v) : v.len ≤ 64 := by
  obtain ⟨a, ha, h⟩ := bind_eq_ok h
  obtain ⟨b, -, h⟩ := bind_eq_ok h
  obtain ⟨-, -, h⟩ := bind_eq_ok h
  cases h
  obtain ⟨hl, rfl⟩ := opnd_eq_ok ha
  exact hl

theorem catResult_len {s : State} {v : BitSeq} (h : catResult s = .ok v) : v.len ≤ 64 := by
  obtain ⟨a, -, h⟩ := bind_eq_ok h
  obtain ⟨b, -, h⟩ := bind_eq_ok h
  obtain ⟨_, hc, h⟩ := bind_eq_ok h
  cases h
  have := failIf_eq_ok hc
  simp only [decide_eq_false_iff_not, Nat.not_lt] at this
  exact this

theorem sboxResult_len {g : Nat} {s : State} {v : BitSeq} (h : sboxResult g s = .ok v) : v.len = 4 := by
  obtain ⟨-, -, h⟩ := bind_eq_ok h
  obtain ⟨a, -, h⟩ := bind_eq_ok h
  obtain ⟨-, -, h⟩ := bind_eq_ok h
  cases h
  rfl

theorem feisResult_len {s : State} {v : BitSeq} (h : feisResult s = .ok v) : v.len = 32 := by
  obtain ⟨a, -, h⟩ := bind_eq_ok h
  obtain ⟨b, -, h⟩ := bind_eq_ok h
  obtain ⟨-, -, h⟩ := bind_eq_ok h
  obtain ⟨-, -, h⟩ := bind_eq_ok h
  cases h
  rfl

theorem blockResult_len {f : Word → List Subkey → Word} {s : State} {v : BitSeq} (h : blockResult f s = .ok v) : v.len = 64 := by
  obtain ⟨a, -, h⟩ := bind_eq_ok h
  obtain ⟨-, -, h⟩ := bind_eq_ok h
  obtain ⟨ks, -, h⟩ := bind_eq_ok h
  cases h
  rfl

/-- The result function of each command that writes Y. -/
def resultOf : Instr → State → Except CmdError BitSeq
  | .encb, s => blockResult encBlock s
  | .decb, s => blockResult decBlock s
  | .feis, s => feisResult s
  | .perm, s => permResult s
  | .permIp, s => permuteA s 64 64 tableIP
  | .permFp, s => permuteA s 64 64 tableFP
  | .permE, s => permuteA s 32 48 tableE
  | .permP, s => permuteA s 32 32 tableP
  | .permPc1, s => permuteA s 63 56 tablePC1
  | .permPc2, s => permuteA s 56 48 tablePC2
  | .rotl n, s => rotlResult n s
  | .xor, s => xorResult s
  | .cat, s => catResult s
  | .sbox g, s => sboxResult g s
  | .derive, _ => .ok BitSeq.empty
  | .encm _ _, _ => .ok BitSeq.empty
  | .decm _ _, _ => .ok BitSeq.empty
  | .conv _ _, _ => .ok BitSeq.empty

/-- The output function of each command that writes MOUT. -/
def outputOf : Instr → State → Except CmdError (List Byte)
  | .encm ie oe, s => cipherMessage encBlock ie oe s
  | .decm ie oe, s => cipherMessage decBlock ie oe s
  | .conv ie oe, s => convMessage ie oe s
  | .derive, _ => .ok []
  | .encb, _ => .ok []
  | .decb, _ => .ok []
  | .feis, _ => .ok []
  | .perm, _ => .ok []
  | .permIp, _ => .ok []
  | .permFp, _ => .ok []
  | .permE, _ => .ok []
  | .permP, _ => .ok []
  | .permPc1, _ => .ok []
  | .permPc2, _ => .ok []
  | .rotl _, _ => .ok []
  | .xor, _ => .ok []
  | .cat, _ => .ok []
  | .sbox _, _ => .ok []

theorem exec_writesY {i : Instr} (hi : writesY i = true) (s : State) : exec i s = finishY s (resultOf i s) := by
  cases i <;> first | rfl | exact nomatch hi

theorem exec_writesMout {i : Instr} (hi : writesMout i = true) (s : State) : exec i s = finishMessage s (outputOf i s) := by
  cases i <;> first | rfl | exact nomatch hi

theorem resultOf_len {i : Instr} {s : State} {v : BitSeq} (h : resultOf i s = .ok v) : v.len ≤ 64 := by
  cases i with
  | derive => cases h; simp [BitSeq.empty]
  | encm => cases h; simp [BitSeq.empty]
  | decm => cases h; simp [BitSeq.empty]
  | conv => cases h; simp [BitSeq.empty]
  | encb => exact (blockResult_len h).le
  | decb => exact (blockResult_len h).le
  | feis => have := feisResult_len h; omega
  | perm => exact permResult_len h
  | permIp => exact (permuteA_len h).le
  | permFp => exact (permuteA_len h).le
  | permE => have := permuteA_len h; omega
  | permP => have := permuteA_len h; omega
  | permPc1 => have := permuteA_len h; omega
  | permPc2 => have := permuteA_len h; omega
  | rotl n => exact rotlResult_len h
  | xor => exact xorResult_len h
  | cat => exact catResult_len h
  | sbox g => have := sboxResult_len h; omega

theorem command_kind (i : Instr) : i = .derive ∨ writesY i = true ∨ writesMout i = true := by
  cases i <;> simp [writesY, writesMout]

/-- Everything a command can do: fail and record the error, or make the writes of its kind and record success. -/
theorem exec_next {i : Instr} {s t : State} (h : exec i s = .next t) :
    (∃ e, t = s.failed e) ∨
    (i = .derive ∧ s.keyLen.toNat = 64 ∧ t = (s.setSchedule s.key).succeeded) ∨
    (writesY i = true ∧ ∃ v, resultOf i s = .ok v ∧ v.len ≤ 64 ∧ t = (s.setY v).succeeded) ∨
    (writesMout i = true ∧ ∃ o, outputOf i s = .ok o ∧ t = (s.setMout o).succeeded) := by
  rcases command_kind i with rfl | hy | hm
  · rcases execDerive_next h with ⟨-, rfl⟩ | ⟨hk, rfl⟩
    · exact .inl ⟨_, rfl⟩
    · exact .inr (.inl ⟨rfl, hk, rfl⟩)
  · rw [exec_writesY hy] at h
    rcases finishY_next h with ⟨e, -, rfl⟩ | ⟨v, hv, rfl⟩
    · exact .inl ⟨e, rfl⟩
    · exact .inr (.inr (.inl ⟨hy, v, hv, resultOf_len hv, rfl⟩))
  · rw [exec_writesMout hm] at h
    rcases finishMessage_next h with ⟨e, -, rfl⟩ | ⟨o, ho, rfl⟩
    · exact .inl ⟨e, rfl⟩
    · exact .inr (.inr (.inr ⟨hm, o, ho, rfl⟩))

end Sys2Proof.Machine
end

