-- ==== Sys2Proof/Laws/Framer.lean ====
section
/-! SUPPORT. The laws of message sequences: joining and splitting groups of bits, padding, and the hex digits (44_message_framer.md). -/

namespace Sys2Proof.Machine

variable {w : Nat}

/-- Two sequences are equal when their lengths and positions are (00_scope.md R8). -/
theorem BitSeq.ext_pos {s t : BitSeq} (hl : s.len = t.len) (h : ∀ p, 1 ≤ p → p ≤ s.len → pos s.bits p = pos t.bits p) : s = t := by
  obtain ⟨n, v⟩ := s
  obtain ⟨m, u⟩ := t
  obtain rfl : n = m := hl
  have h' : v = u := eq_of_pos h
  rw [h']

/-- Two sequences are equal when their lengths and values are. -/
theorem BitSeq.ext_toNat {s t : BitSeq} (hl : s.len = t.len) (h : s.bits.toNat = t.bits.toNat) : s = t := by
  obtain ⟨n, v⟩ := s
  obtain ⟨m, u⟩ := t
  obtain rfl : n = m := hl
  have h' : v = u := BitVec.eq_of_toNat_eq h
  rw [h']

@[simp] theorem BitSeq.append_len (s t : BitSeq) : (s.append t).len = s.len + t.len := rfl

@[simp] theorem BitSeq.zeros_len (k : Nat) : (BitSeq.zeros k).len = k := rfl

@[simp] theorem BitSeq.empty_len : BitSeq.empty.len = 0 := rfl

theorem BitSeq.append_toNat (s t : BitSeq) : (s.append t).bits.toNat = s.bits.toNat * 2 ^ t.len + t.bits.toNat := by
  simp only [BitSeq.append, BitVec.toNat_append]
  rw [Nat.shiftLeft_eq, Nat.mul_comm]
  exact (Nat.two_pow_add_eq_or_of_lt t.bits.isLt _).symm

theorem BitSeq.append_assoc (s t u : BitSeq) : (s.append t).append u = s.append (t.append u) := by
  apply BitSeq.ext_toNat
  · simp [Nat.add_assoc]
  · rw [BitSeq.append_toNat, BitSeq.append_toNat, BitSeq.append_toNat, BitSeq.append_toNat, BitSeq.append_len, Nat.pow_add]
    ring

theorem BitSeq.append_empty (s : BitSeq) : s.append BitSeq.empty = s := by
  apply BitSeq.ext_toNat
  · simp
  · rw [BitSeq.append_toNat]
    exact Nat.mul_one _

theorem BitSeq.empty_append (s : BitSeq) : BitSeq.empty.append s = s := by
  apply BitSeq.ext_toNat
  · simp
  · rw [BitSeq.append_toNat]
    simp [BitSeq.empty]

@[simp] theorem concatGroups_len (xs : List (BitVec w)) : (concatGroups xs).len = w * xs.length := by
  induction xs with
  | nil => rfl
  | cons x xs ih =>
    show w + (concatGroups xs).len = _
    rw [ih, List.length_cons, Nat.mul_succ, Nat.add_comm]

theorem concatGroups_append (xs ys : List (BitVec w)) : concatGroups (xs ++ ys) = (concatGroups xs).append (concatGroups ys) := by
  induction xs with
  | nil => exact (BitSeq.empty_append _).symm
  | cons x xs ih =>
    show BitSeq.append ⟨w, x⟩ (concatGroups (xs ++ ys)) = (BitSeq.append ⟨w, x⟩ (concatGroups xs)).append (concatGroups ys)
    rw [ih, BitSeq.append_assoc]

/-- The value of joined groups is the number with those digits in base 2^w. -/
theorem concatGroups_toNat (xs : List (BitVec w)) (a : Nat) :
    xs.foldl (fun acc x => acc * 2 ^ w + x.toNat) a = a * 2 ^ (w * xs.length) + (concatGroups xs).bits.toNat := by
  induction xs generalizing a with
  | nil => simp [concatGroups, BitSeq.empty]
  | cons x xs ih =>
    rw [List.foldl_cons, ih]
    have : (concatGroups (x :: xs)).bits.toNat = x.toNat * 2 ^ (w * xs.length) + (concatGroups xs).bits.toNat := by
      have h := BitSeq.append_toNat ⟨w, x⟩ (concatGroups xs)
      have hl := congrArg (fun l => x.toNat * 2 ^ l + (concatGroups xs).bits.toNat) (concatGroups_len xs)
      exact h.trans hl
    rw [this, List.length_cons, Nat.mul_succ, Nat.pow_add]
    ring

theorem pos_concatGroups (xs : List (BitVec w)) (j : Nat) (h : j < xs.length) {p : Nat} (h₁ : 1 ≤ p) (h₂ : p ≤ w) :
    pos (concatGroups xs).bits (j * w + p) = pos xs[j] p := by
  induction xs generalizing j with
  | nil => exact nomatch h
  | cons x xs ih =>
    have hx : pos (concatGroups (x :: xs)).bits (j * w + p) = pos (x ++ (concatGroups xs).bits) (j * w + p) := rfl
    rw [hx]
    cases j with
    | zero =>
      rw [Nat.zero_mul, Nat.zero_add, pos_append_left _ _ h₂]
      rfl
    | succ j =>
      have hj : j < xs.length := by simpa using h
      have hle : j * w + p ≤ (concatGroups xs).len := by
        rw [concatGroups_len, Nat.mul_comm w]
        have := Nat.mul_le_mul_right w (Nat.succ_le_of_lt hj)
        rw [Nat.succ_mul] at this
        omega
      have : (j + 1) * w + p = w + (j * w + p) := by
        rw [Nat.succ_mul]
        omega
      rw [this, pos_append_right _ _ (by omega) hle, ih j hj]
      rfl

/-- Group `j` of joined groups is the `j`-th of them. -/
theorem seg_concatGroups (xs : List (BitVec w)) (j : Nat) (h : j < xs.length) : seg (concatGroups xs).bits j w = xs[j] := by
  apply eq_of_pos
  intro p h₁ h₂
  rw [pos_seg _ _ h₁ h₂, pos_concatGroups xs j h h₁ h₂]
  rw [concatGroups_len, Nat.mul_comm]
  exact Nat.mul_le_mul_left w (Nat.succ_le_of_lt h)

@[simp] theorem groups_length (s : BitSeq) : (groups w s).length = s.len / w := by
  simp [groups]

/-- Splitting joined groups gives them back. -/
theorem groups_concatGroups (xs : List (BitVec w)) (hw : 0 < w) : groups w (concatGroups xs) = xs := by
  apply List.ext_getElem
  · rw [groups_length, concatGroups_len, Nat.mul_div_cancel_left _ hw]
  · intro j h₁ h₂
    simp only [groups, List.getElem_map, List.getElem_range]
    exact seg_concatGroups xs j h₂

/-- Joining the groups of a sequence of whole groups gives it back. -/
theorem concatGroups_groups (s : BitSeq) (hw : 0 < w) (h : s.len % w = 0) : concatGroups (groups w s) = s := by
  have hdiv : w * (s.len / w) = s.len := by
    have := Nat.div_add_mod s.len w
    omega
  apply BitSeq.ext_pos
  · rw [concatGroups_len, groups_length, hdiv]
  · intro p h₁ h₂
    rw [concatGroups_len, groups_length] at h₂
    obtain ⟨q, rfl⟩ : ∃ q, p = q + 1 := ⟨p - 1, by omega⟩
    have hq : q / w < s.len / w := by
      rw [Nat.div_lt_iff_lt_mul hw, Nat.mul_comm]
      omega
    have hp : q + 1 = q / w * w + (q % w + 1) := by
      have := Nat.div_add_mod q w
      rw [Nat.mul_comm] at this
      omega
    have hm : q % w + 1 ≤ w := Nat.succ_le_of_lt (Nat.mod_lt _ hw)
    rw [hp, pos_concatGroups _ _ (by simpa using hq) (by omega) hm]
    simp only [groups, List.getElem_map, List.getElem_range]
    rw [pos_seg _ _ (by omega) hm]
    have := Nat.mul_le_mul_right w (Nat.succ_le_of_lt hq)
    rw [Nat.mul_comm (s.len / w), hdiv] at this
    exact this

theorem padBits_lt (n : Nat) (hw : 0 < w) : padBits n w < w := Nat.mod_lt _ hw

theorem add_padBits_mod (n : Nat) (hw : 0 < w) : (n + padBits n w) % w = 0 := by
  unfold padBits
  have h := Nat.mod_lt n hw
  rw [Nat.add_mod]
  by_cases h0 : n % w = 0
  · simp [h0]
  · rw [Nat.mod_eq_of_lt (show w - n % w < w by omega), Nat.mod_eq_of_lt (show w - n % w < w by omega)]
    rw [show n % w + (w - n % w) = w by omega, Nat.mod_self]

theorem padBits_of_mod {n : Nat} (h : n % w = 0) : padBits n w = 0 := by
  simp [padBits, h]

@[simp] theorem padLeft_len (s : BitSeq) : (padLeft w s).len = s.len + padBits s.len w := by
  simp [padLeft, Nat.add_comm]

@[simp] theorem padRight_len (s : BitSeq) : (padRight w s).len = s.len + padBits s.len w := by
  simp [padRight]

theorem padLeft_toNat (s : BitSeq) : (padLeft w s).bits.toNat = s.bits.toNat := by
  rw [padLeft, BitSeq.append_toNat]
  simp [BitSeq.zeros]

theorem padRight_toNat (s : BitSeq) : (padRight w s).bits.toNat = s.bits.toNat <<< padBits s.len w := by
  rw [padRight, BitSeq.append_toNat]
  simp [BitSeq.zeros, Nat.shiftLeft_eq]

theorem padLeft_of_mod (s : BitSeq) (h : s.len % w = 0) : padLeft w s = s := by
  apply BitSeq.ext_toNat
  · simp [padBits_of_mod h]
  · exact padLeft_toNat s

theorem padRight_of_mod (s : BitSeq) (h : s.len % w = 0) : padRight w s = s := by
  apply BitSeq.ext_toNat
  · simp [padBits_of_mod h]
  · simp [padRight_toNat, padBits_of_mod h]

/-- A hex character stands for its digit (44_message_framer.md R251). -/
theorem hexVal_hexChar : ∀ d : BitVec 4, hexVal ((hexChar d).setWidth 32) = some d := by decide

/-- A hex character is a code unit below 256. -/
theorem hexChar_lt (d : BitVec 4) : ((hexChar d).setWidth 32).toNat ≤ 255 := by
  have := (hexChar d).isLt
  simp only [BitVec.toNat_setWidth]
  omega

@[simp] theorem transformBlocks_len (f : Word → List Subkey → Word) (ks : List Subkey) (bs : List Word) :
    (transformBlocks f ks bs).len = 64 * bs.length := by
  simp [transformBlocks]

@[simp] theorem frame_length (s : BitSeq) : (frame s).length = (s.len + padBits s.len 64) / 64 := by
  simp [frame]

theorem encodeMessage_hex_length (s : BitSeq) : (encodeMessage .hex s).length = (s.len + padBits s.len 4) / 4 := by
  simp [encodeMessage]

theorem encodeMessage_raw_length (s : BitSeq) : (encodeMessage .raw s).length = (s.len + padBits s.len 8) / 8 := by
  simp [encodeMessage]

/-- The bits of one element of the input (44_message_framer.md R252, R253). -/
def unitLen : Enc → Nat
  | .raw => 8
  | .hex => 4

theorem unitBits_len {e : Enc} {u : CodeUnit} {x : BitSeq} (h : unitBits e u = .ok x) : x.len = unitLen e := by
  cases e with
  | raw =>
    simp only [unitBits] at h
    split at h
    · exact nomatch h
    · cases h
      rfl
  | hex =>
    simp only [unitBits] at h
    split at h
    · exact nomatch h
    · cases h
      rfl

/-- A sequence that DECODE accepts has 8 or 4 bits an element (44_message_framer.md R254). -/
theorem decodeFrom_len {m : Memory 32} {e : Enc} {count i : Nat} {acc q : BitSeq} (h : decodeFrom m e count i acc = .ok q) :
    q.len = acc.len + unitLen e * count := by
  induction count generalizing i acc with
  | zero =>
    cases h
    rfl
  | succ count ih =>
    simp only [decodeFrom] at h
    split at h
    · exact nomatch h
    · split at h
      · exact nomatch h
      · rename_i x hx
        rw [ih h, BitSeq.append_len, unitBits_len hx, Nat.mul_succ]
        omega

end Sys2Proof.Machine
end

