-- ==== Sys2Proof/Laws/PerInstr.lean ====
section
/-! SUPPORT. Statements made once for each command. CommandWord: the shape of every command's word (30_encoding.md R91, R97). -/

namespace Sys2Proof.Laws.CommandWord

/-- The opcode of a command, bits [5:0] of its word (30_encoding.md R97). -/
def opcodeOf : Instr → BitVec 6
  | .derive => 0x01
  | .encb => 0x02
  | .decb => 0x03
  | .encm _ _ => 0x04
  | .decm _ _ => 0x05
  | .feis => 0x06
  | .perm => 0x07
  | .permIp => 0x07
  | .permFp => 0x07
  | .permE => 0x07
  | .permP => 0x07
  | .permPc1 => 0x07
  | .permPc2 => 0x07
  | .rotl _ => 0x08
  | .xor => 0x09
  | .cat => 0x0A
  | .sbox _ => 0x0B
  | .conv _ _ => 0x0C

/-- The word's upper half is 0 (R91) and its opcode is the row's (R97). -/
def Statement (i : Instr) : Prop := (encode i).extractLsb' 32 32 = 0#32 ∧ (encode i).extractLsb' 0 6 = opcodeOf i

/-- A number put at bit 16 of a word leaves the opcode below it and the upper half above it as they are. -/
theorem field16 (p : BitVec 32) (n : Nat) :
    ((p ||| (BitVec.ofNat 32 n <<< 16)).setWidth 64).extractLsb' 32 32 = 0#32 ∧
    ((p ||| (BitVec.ofNat 32 n <<< 16)).setWidth 64).extractLsb' 0 6 = p.extractLsb' 0 6 := by
  constructor
  · apply BitVec.eq_of_getLsbD_eq
    intro i _
    rw [BitVec.getLsbD_extractLsb', BitVec.getLsbD_setWidth, BitVec.getLsbD_of_ge _ (32 + i) (by omega)]
    simp
  · apply BitVec.eq_of_getLsbD_eq
    intro i hi
    simp only [BitVec.getLsbD_extractLsb', BitVec.getLsbD_setWidth, BitVec.getLsbD_or, BitVec.getLsbD_shiftLeft]
    have h₁ : i < 16 := by omega
    have h₂ : i < 32 := by omega
    have h₃ : i < 64 := by omega
    simp [h₁, h₂, h₃, hi]

theorem derive : Statement .derive := ⟨rfl, rfl⟩

theorem encb : Statement .encb := ⟨rfl, rfl⟩

theorem decb : Statement .decb := ⟨rfl, rfl⟩

theorem encm (ienc oenc : Enc) : Statement (.encm ienc oenc) := by cases ienc <;> cases oenc <;> exact ⟨rfl, rfl⟩

theorem decm (ienc oenc : Enc) : Statement (.decm ienc oenc) := by cases ienc <;> cases oenc <;> exact ⟨rfl, rfl⟩

theorem feis : Statement .feis := ⟨rfl, rfl⟩

theorem perm : Statement .perm := ⟨rfl, rfl⟩

theorem permIp : Statement .permIp := ⟨rfl, rfl⟩

theorem permFp : Statement .permFp := ⟨rfl, rfl⟩

theorem permE : Statement .permE := ⟨rfl, rfl⟩

theorem permP : Statement .permP := ⟨rfl, rfl⟩

theorem permPc1 : Statement .permPc1 := ⟨rfl, rfl⟩

theorem permPc2 : Statement .permPc2 := ⟨rfl, rfl⟩

theorem rotl (n : Nat) : Statement (.rotl n) := field16 0x00000008#32 n

theorem xor : Statement .xor := ⟨rfl, rfl⟩

theorem cat : Statement .cat := ⟨rfl, rfl⟩

theorem sbox (g : Nat) : Statement (.sbox g) := field16 0x0000000B#32 g

theorem conv (ienc oenc : Enc) : Statement (.conv ienc oenc) := by cases ienc <;> cases oenc <;> exact ⟨rfl, rfl⟩

end Sys2Proof.Laws.CommandWord
end

