-- ==== Sys2Proof/Laws/Port.lean ====
section
/-! SUPPORT. What a command write, a host access and a step can do, said once (30_encoding.md R90; 60_exceptions.md R302;
70_reset_and_hazards.md R354). -/

namespace Sys2Proof.Machine

/-- Everything a CMD write can do: record an error, or run the command it names to a success. -/
theorem runCommand_next {w : Word} {s t : State} (h : runCommand w s = .next t) :
    (∃ e, t = (s.setCmd w).failed e) ∨
    ∃ i, decode w = .ok i ∧ exec i (s.setCmd w) = .next t ∧ t.cmd = w ∧
      t.status = s.status.recordSuccess (w.extractLsb' 0 6) := by
  unfold runCommand at h
  split at h
  · cases h
    exact .inl ⟨_, rfl⟩
  · rename_i i hi
    rcases exec_next h with ⟨e, rfl⟩ | ⟨-, -, rfl⟩ | ⟨-, v, -, -, rfl⟩ | ⟨-, o, -, rfl⟩
    · exact .inl ⟨e, rfl⟩
    all_goals exact .inr ⟨i, hi, h, rfl, rfl⟩

/-- Everything a read can do: return a value to the host. -/
theorem perform_rd_next {sp : Space} {i : Nat} {s t : State} (h : perform (.rd sp i) s = .next t) : ∃ v, t = s.setRead v := by
  cases sp <;> simp only [perform, readRegister, readMin, readMout] at h <;> repeat' split at h
  all_goals
    cases h
    try exact ⟨_, rfl⟩

/-- A read of an index returns what its register reads as (20_memory.md R61). -/
theorem readRegister_of {i : Nat} {r : Reg} {s : State} {v : Word} (hr : Reg.ofIndex i = some r) (hv : s.readReg r = some v) :
    readRegister i s = .next (s.setRead v) := by
  simp only [readRegister, hr, hv]
  rfl

/-- A write of an index, other than to CMD, stores in its register (20_memory.md R61). -/
theorem writeRegister_of {i : Nat} {r : Reg} {s t : State} {v : Word} (hr : Reg.ofIndex i = some r) (hc : r ≠ .cmd)
    (ht : s.writeReg r v = some t) : writeRegister i v s = .next t := by
  cases r <;> first | exact absurd rfl hc | simp only [writeRegister, hr, ht]

/-- Keys with the same subkeys fill the subkey file alike (41_key_schedule.md R168). -/
theorem keyScheduleFile_congr {k k' : Word} (h : keySchedule k = keySchedule k') : keyScheduleFile k = keyScheduleFile k' := by
  unfold keyScheduleFile
  generalize keySchedule_length k = p
  generalize keySchedule_length k' = q
  revert p q
  rw [h]
  exact fun _ _ => rfl

/-- Everything a REG write can do: run a command, or store in a data register. -/
theorem writeRegister_next {i : Nat} {v : Word} {s t : State} (h : writeRegister i v s = .next t) :
    (Reg.ofIndex i = some .cmd ∧ runCommand v s = .next t) ∨
    ∃ r, Reg.ofIndex i = some r ∧ r ≠ .cmd ∧ s.writeReg r v = some t := by
  unfold writeRegister at h
  split at h
  · exact nomatch h
  · rename_i hr
    exact .inl ⟨hr, h⟩
  · rename_i r hc hr
    split at h
    · exact nomatch h
    · rename_i u hu
      cases h
      exact .inr ⟨r, hr, fun hn => hc (hn ▸ rfl), hu⟩

/-- Everything a host access can do. -/
theorem perform_next {a : Access} {s t : State} (h : perform a s = .next t) :
    (a = .reset ∧ t = s.resetCore) ∨
    (∃ sp i v, a = .rd sp i ∧ t = s.setRead v) ∨
    (∃ i v, a = .wr .min i v ∧ i < s.caps.toNat ∧ t = s.setMin i v) ∨
    (∃ i v, a = .wr .reg i v ∧ Reg.ofIndex i = some .cmd ∧ runCommand v s = .next t) ∨
    ∃ i v r, a = .wr .reg i v ∧ Reg.ofIndex i = some r ∧ r ≠ .cmd ∧ s.writeReg r v = some t := by
  cases a with
  | reset =>
    cases h
    exact .inl ⟨rfl, rfl⟩
  | rd sp i =>
    obtain ⟨v, rfl⟩ := perform_rd_next h
    exact .inr (.inl ⟨sp, i, v, rfl, rfl⟩)
  | wr sp i v =>
    cases sp with
    | mout => exact nomatch h
    | min =>
      simp only [perform, writeMin] at h
      split at h
      · exact nomatch h
      · rename_i hi
        cases h
        exact .inr (.inr (.inl ⟨i, v, rfl, Nat.not_le.mp hi, rfl⟩))
    | reg =>
      rcases writeRegister_next h with ⟨hr, hc⟩ | ⟨r, hr, hn, hw⟩
      · exact .inr (.inr (.inr (.inl ⟨i, v, rfl, hr, hc⟩)))
      · exact .inr (.inr (.inr (.inr ⟨i, v, r, rfl, hr, hn, hw⟩)))

/-- Everything a step can do: nothing, or the first pending access. -/
theorem step_next {s t : State} (h : step s = .next t) :
    (s.pending = [] ∧ t = s) ∨ ∃ a rest, s.pending = a :: rest ∧ perform a (s.setPending rest) = .next t := by
  simp only [step, nextAccess] at h
  split at h
  · rename_i hp
    cases h
    exact .inl ⟨hp, rfl⟩
  · rename_i a rest hp
    exact .inr ⟨a, rest, hp, h⟩

/-- What DECODE accepts has 8 or 4 bits an element, and the length fits MSG_CAP (44_message_framer.md R254). -/
theorem decodeMessage_len {s : State} {e : Enc} {q : BitSeq} (h : decodeMessage s e = .ok q) :
    q.len = unitLen e * s.msgInLen.toNat ∧ s.msgInLen.toNat ≤ s.caps.toNat := by
  obtain ⟨_, hc, hd⟩ := bind_eq_ok h
  have hcap := failIf_eq_ok hc
  rw [decide_eq_false_iff_not, Nat.not_lt] at hcap
  rw [decodeFrom_len hd, BitSeq.empty_len, Nat.zero_add]
  exact ⟨rfl, hcap⟩

/-- No buffer operation of a step leaves the canonical form of MIN, MOUT or PTAB (20_memory.md R60). -/
theorem setMin_wf (s : State) (i : Nat) (v : Word) (h : s.min.wf = true) : (s.setMin i v).min.wf = true :=
  Memory.wf_write s.min i _ h

theorem setMout_wf (s : State) (o : List Byte) (h : s.mout.wf = true) : (s.setMout o).mout.wf = true :=
  Memory.wf_writeFrom s.mout 0 o h

theorem writePtab_wf (s : State) (j : Fin 64) (v : Word) (h : s.ptab.wf = true) : (s.writePtab j v).ptab.wf = true :=
  Memory.wf_write s.ptab j _ h

theorem reset_wf : State.reset.min.wf = true ∧ State.reset.mout.wf = true ∧ State.reset.ptab.wf = true := ⟨rfl, rfl, rfl⟩

end Sys2Proof.Machine
end

