-- ==== Sys2Proof/Tests/Slice0.lean ====
section
/-! SUPPORT. The model's own tests: the checks of WellFormed, one word a command (30_encoding.md R97), one-step tests with the vectors of
95_test_vectors.md, and for every obligation with hypotheses a state and operands that meet them. -/

namespace Sys2Proof.Tests

open Sys2Proof.Machine Sys2Proof.Claims

/-! ## Helpers -/

/-- The state after reset of a core with the suggested MSG_CAP (00_scope.md R6). -/
def bench : State := { State.reset with caps := 4096 }

def withA (v : Word) (n : BitVec 8) : State := { bench with a := v, aLen := n }

def withAB (v : Word) (n : BitVec 8) (u : Word) (m : BitVec 8) : State := { withA v n with b := u, bLen := m }

def withTable (v : Word) (n : BitVec 8) (T : List Byte) : State :=
  { withA v n with ptab := Memory.writeFrom [] 0 T, ptabLen := BitVec.ofNat 8 T.length }

/-- The input message `us` and the key of the document's vector. -/
def withInput (us : List CodeUnit) : State :=
  { bench with key := 0x133457799BBCDFF1, keyLen := 64, min := Memory.writeFrom [] 0 us, msgInLen := BitVec.ofNat 32 us.length }

/-- The subkeys of V12. -/
def subkeysV12 : Vector Subkey 16 :=
  #v[0x1B02EFFC7072, 0x79AED9DBC9E5, 0x55FC8A42CF99, 0x72ADD6DB351D, 0x7CEC07EB53A8, 0x63A53E507B2F, 0xEC84B7F618BC, 0xF78A3AC13BFB,
    0xE0DBEBEDE781, 0xB1F347BA464F, 0x215FD3DED386, 0x7571F59467E9, 0x97C5D1FABA41, 0x5F43B7F2E73A, 0xBF918D3D3F0A, 0xCB3D8B0E17F5]

/-- A core that holds the subkeys of V12 and the block `v`. -/
def withSubkeys (v : Word) : State := { withA v 64 with sk := subkeysV12, skw := 0xFFFF }

def nextState : Result → Option State
  | .next t => some t
  | .fault _ => none
  | .refused _ => none

theorem next_of {r : Result} {t : State} (h : nextState r = some t) : r = .next t := by
  cases r with
  | next u => exact congrArg _ (Option.some.inj h)
  | fault f => exact nomatch h
  | refused f => exact nomatch h

theorem exists_next {r : Result} {p : State → Bool} (h : (nextState r).any p = true) : ∃ t, r = .next t ∧ p t = true := by
  cases r with
  | next u => exact ⟨u, rfl, h⟩
  | fault f => exact nomatch h
  | refused f => exact nomatch h

/-- Y_LEN, Y and the STATUS word after a command. -/
def yAndStatus (r : Result) : Option (Nat × Nat × Nat) :=
  (nextState r).map (fun t => (t.yLen.toNat, t.y.toNat, t.status.toWord.toNat))

/-- The readable output, MSG_OUT_LEN and the STATUS word after a command. -/
def outputAndStatus (r : Result) : Option (List (Option Byte) × Nat × Nat) :=
  (nextState r).map (fun t =>
    ((List.range t.msgOutLen.toNat).map t.mout.read, t.msgOutLen.toNat, t.status.toWord.toNat))

/-- The STATUS word after a command. -/
def statusAfter (r : Result) : Option Nat := (nextState r).map (fun t => t.status.toWord.toNat)

/-! ## WellFormed refuses what no word can hold (30_encoding.md R95, R96) -/

theorem test_wf_refuses_rotl_64 : ¬(Instr.rotl 64).WellFormed := by decide

theorem test_wf_takes_rotl_63 : (Instr.rotl 63).WellFormed := by decide

theorem test_wf_refuses_sbox_8 : ¬(Instr.sbox 8).WellFormed := by decide

theorem test_wf_takes_sbox_7 : (Instr.sbox 7).WellFormed := by decide

theorem test_assembler_refuses_rotl_64 : assemble (.rotl 64) = none := by decide

/-! ## One word a constructor, from the rows of 30_encoding.md R97 -/

theorem test_decode_derive : decodeTableWord 32 0x00000001 = some .derive := by decide

theorem test_decode_encb : decodeTableWord 32 0x00000002 = some .encb := by decide

theorem test_decode_decb : decodeTableWord 32 0x00000003 = some .decb := by decide

/-- 0b10_0000_0100: OENC is bit 9, IENC bit 8. -/
theorem test_decode_encm : decodeTableWord 32 0b1000000100 = some (.encm .raw .hex) := by decide

theorem test_decode_decm : decodeTableWord 32 0b0100000101 = some (.decm .hex .raw) := by decide

theorem test_decode_feis : decodeTableWord 32 0x00000006 = some .feis := by decide

/-- TSEL is bits [14:12]. -/
theorem test_decode_perm : decodeTableWord 32 0b000000000000111 = some .perm := by decide

theorem test_decode_permIp : decodeTableWord 32 0b001000000000111 = some .permIp := by decide

theorem test_decode_permFp : decodeTableWord 32 0b010000000000111 = some .permFp := by decide

theorem test_decode_permE : decodeTableWord 32 0b011000000000111 = some .permE := by decide

theorem test_decode_permP : decodeTableWord 32 0b100000000000111 = some .permP := by decide

theorem test_decode_permPc1 : decodeTableWord 32 0b101000000000111 = some .permPc1 := by decide

theorem test_decode_permPc2 : decodeTableWord 32 0b110000000000111 = some .permPc2 := by decide

/-- N is bits [21:16]: 0b101101 is 45. -/
theorem test_decode_rotl : decodeTableWord 32 0b1011010000000000001000 = some (.rotl 45) := by decide

theorem test_decode_xor : decodeTableWord 32 0x00000009 = some .xor := by decide

theorem test_decode_cat : decodeTableWord 32 0x0000000A = some .cat := by decide

/-- G is bits [18:16]: 0b110 is 6. -/
theorem test_decode_sbox : decodeTableWord 32 0b1100000000000001011 = some (.sbox 6) := by decide

theorem test_decode_conv : decodeTableWord 32 0b1100001100 = some (.conv .hex .hex) := by decide

/-- V85, V87, V88, V89 and 30_encoding.md R98: TSEL = 7, a field DERIVE does not use, bit 19 with SBOX, opcode 13. -/
theorem test_decode_refuses :
    decodeTableWord 32 0x00007007 = none ∧ decodeTableWord 32 0x00000101 = none ∧ decodeTableWord 32 0x0008000B = none ∧
    decodeTableWord 32 0x0000000D = none := by decide

/-- V86: bit 32 is set. -/
theorem test_decode_refuses_high_bits : (decode 0x0000000100000001).toOption = none := by decide

/-! ## One step of each command, with the vectors of 95_test_vectors.md -/

/-- V12. -/
theorem test_derive :
    (nextState (runCommand 0x00000001 { bench with key := 0x133457799BBCDFF1, keyLen := 64 })).map (fun t => (t.sk, t.skw)) =
      some (subkeysV12, 0xFFFF) := by decide +kernel

/-- V60. -/
theorem test_derive_key_length : statusAfter (runCommand 0x00000001 { bench with keyLen := 63 }) = some 0x00010107 := by decide

/-- V1. -/
theorem test_encb : yAndStatus (runCommand 0x00000002 (withSubkeys 0x0123456789ABCDEF)) = some (64, 0x85E813540F0AB405, 0x00020001) := by
  decide +kernel

/-- V81: SK[16] has not been written. -/
theorem test_encb_incomplete : statusAfter (runCommand 0x00000002 { withA 0 64 with skw := 0x7FFF }) = some 0x00020807 := by decide

/-- V2. -/
theorem test_decb : yAndStatus (runCommand 0x00000003 (withSubkeys 0x85E813540F0AB405)) = some (64, 0x0123456789ABCDEF, 0x00030001) := by
  decide +kernel

/-- V62 for DECB: the operand's length is checked before SKW. -/
theorem test_decb_too_long : statusAfter (runCommand 0x00000003 (withA 0 65)) = some 0x00030207 := by decide

/-- V50: "A" to "024C142A621E999E". -/
theorem test_encm :
    outputAndStatus (runCommand 0x00000204 (withInput [0x41])) =
      some ([some 0x30, some 0x32, some 0x34, some 0x43, some 0x31, some 0x34, some 0x32, some 0x41, some 0x36, some 0x32, some 0x31,
        some 0x45, some 0x39, some 0x39, some 0x39, some 0x45], 16, 0x00040001) := by decide +kernel

/-- V64: the input is read before the key is checked. -/
theorem test_encm_overflow_first : statusAfter (runCommand 0x00000204 { withInput [0x100] with keyLen := 0 }) = some 0x00040407 := by
  decide

/-- V50 backwards, as V52: "024C142A621E999E" to the byte 41 and seven zero bytes. -/
theorem test_decm :
    outputAndStatus (runCommand 0x00000105 (withInput
      [0x30, 0x32, 0x34, 0x43, 0x31, 0x34, 0x32, 0x41, 0x36, 0x32, 0x31, 0x45, 0x39, 0x39, 0x39, 0x45])) =
      some ([some 0x41, some 0, some 0, some 0, some 0, some 0, some 0, some 0], 8, 0x00050001) := by decide +kernel

/-- V63 for DECM. -/
theorem test_decm_key_length : statusAfter (runCommand 0x00000005 { withInput [0x41] with keyLen := 0 }) = some 0x00050107 := by decide

/-- V30. -/
theorem test_feis :
    yAndStatus (runCommand 0x00000006 (withAB 0xF0AAF0AA 32 0x1B02EFFC7072 48)) = some (32, 0x234AA9BB, 0x00060001) := by decide +kernel

/-- V90. -/
theorem test_feis_lengths : statusAfter (runCommand 0x00000006 (withAB 0 31 0 47)) = some 0x00060207 := by decide

/-- V40: bit reversal. -/
theorem test_perm : yAndStatus (runCommand 0x00000007 (withTable 0xB4 8 [8, 7, 6, 5, 4, 3, 2, 1])) = some (8, 0x2D, 0x00070001) := by decide

/-- V68: PTAB[1] has not been written. -/
theorem test_perm_unwritten : statusAfter (runCommand 0x00000007 { withTable 0 8 [1] with ptabLen := 2 }) = some 0x00070B07 := by decide

/-- V20. -/
theorem test_permIp :
    yAndStatus (runCommand 0x00001007 (withA 0x0123456789ABCDEF 64)) = some (64, 0xCC00CCFFF0AAF0AA, 0x00070001) := by decide +kernel

/-- V41. -/
theorem test_permIp_short : statusAfter (runCommand 0x00001007 (withA 0 32)) = some 0x00070507 := by decide

/-- V21. -/
theorem test_permFp :
    yAndStatus (runCommand 0x00002007 (withA 0x0A4CD99543423234 64)) = some (64, 0x85E813540F0AB405, 0x00070001) := by decide +kernel

/-- V32: positions 33 to 40 are not read. -/
theorem test_permE : yAndStatus (runCommand 0x00003007 (withA 0xF0AAF0AA00 40)) = some (48, 0x7A15557A1555, 0x00070001) := by
  decide +kernel

/-- V30. -/
theorem test_permP : yAndStatus (runCommand 0x00004007 (withA 0x5C82B597 32)) = some (32, 0x234AA9BB, 0x00070001) := by decide +kernel

/-- V41: 63 positions are enough, since PC-1 does not use position 64. -/
theorem test_permPc1 : yAndStatus (runCommand 0x00005007 (withA 0x099A2BBCCDDE6FF8 63)) = some (56, 0xF0CCAAF556678F, 0x00070001) := by
  decide +kernel

/-- V41. -/
theorem test_permPc1_short : statusAfter (runCommand 0x00005007 (withA 0 62)) = some 0x00070507 := by decide

/-- V12: K1 from C_1 and D_1. -/
theorem test_permPc2 : yAndStatus (runCommand 0x00006007 (withA 0xE19955FAACCF1E 56)) = some (48, 0x1B02EFFC7072, 0x00070001) := by
  decide +kernel

/-- V42: the first bit moves round to the last position. -/
theorem test_rotl : yAndStatus (runCommand 0x00010008 (withA 0x8000001 28)) = some (28, 0x0000003, 0x00080001) := by decide

/-- V42: an amount equal to A_LEN. -/
theorem test_rotl_amount : statusAfter (runCommand 0x001C0008 (withA 0x8000001 28)) = some 0x00080607 := by decide

/-- V43. -/
theorem test_xor : yAndStatus (runCommand 0x00000009 (withAB 0xF0AAF0AA 32 0x0F550F55 32)) = some (32, 0xFFFFFFFF, 0x00090001) := by decide

/-- V43. -/
theorem test_xor_lengths : statusAfter (runCommand 0x00000009 (withAB 0 32 0 48)) = some 0x00090307 := by decide

/-- V44. -/
theorem test_cat :
    yAndStatus (runCommand 0x0000000A (withAB 0xF0CCAAF 28 0x556678F 28)) = some (56, 0xF0CCAAF556678F, 0x000A0001) := by decide

/-- V44. -/
theorem test_cat_too_long : statusAfter (runCommand 0x0000000A (withAB 0 40 0 30)) = some 0x000A0207 := by decide

/-- V33: the input 011110 of S4 gives F: row 0, column 15. -/
theorem test_sbox : yAndStatus (runCommand 0x0003000B (withA 0b011110 6)) = some (4, 0xF, 0x000B0001) := by decide

/-- V33: the input 100000 of S3 gives D: row 2, column 0. -/
theorem test_sbox_row : yAndStatus (runCommand 0x0002000B (withA 0b100000 6)) = some (4, 0xD, 0x000B0001) := by decide

/-- V56: an odd number of digits is padded on the left. -/
theorem test_conv : outputAndStatus (runCommand 0x0000010C (withInput [0x41, 0x42, 0x43])) = some ([some 0x0A, some 0xBC], 2, 0x000C0001) := by
  decide

/-- V69: "1G". -/
theorem test_conv_digit : statusAfter (runCommand 0x0000030C (withInput [0x31, 0x47])) = some 0x000C0707 := by decide

/-! ## Steps -/

/-- The first step after reset runs the word placed for it: V40's empty table. -/
theorem test_step_runs_the_placed_word : yAndStatus (step (State.reset.withFetchWord 32 0x00000007)) = some (0, 0, 0x00070001) := by decide

/-- V84. -/
theorem test_step_illegal_word : statusAfter (step (State.reset.withFetchWord 32 0x00000000)) = some 0x00000A07 := by decide

/-- V92: 0x100 written to A_LEN stores 0 (10_state.md R26). -/
theorem test_write_truncates :
    (nextState (perform (.wr .reg 0x05 0x100) (withA 5 64))).map (fun t => t.aLen.toNat) = some 0 := by decide

/-- 70_reset_and_hazards.md R340: the reset input clears STATUS and the subkey file, and CAPS keeps MSG_CAP. -/
theorem test_reset_input :
    (nextState (perform .reset { withSubkeys 1 with status := Status.recordError .illegalCommand 0 })).map
      (fun t => (t.a, t.skw, t.status.toWord, t.caps)) = some (0, 0, 0, 4096) := by decide

/-- V50: the host reads the last of the 16 characters, and MSG_OUT_LEN at index 0x0D (20_memory.md R63; 10_state.md R31). -/
theorem test_read_mout :
    (nextState (perform (.rd .mout 15) { bench with mout := [(15, 0x45)], msgOutLen := 16 })).map (fun t => t.readData) =
      some (some 0x45) ∧
    (nextState (perform (.rd .reg 0x0D) { bench with mout := [(15, 0x45)], msgOutLen := 16 })).map (fun t => t.readData) =
      some (some 16) := by decide

/-- 10_state.md R34: register 0x0F is reserved. -/
theorem test_reserved_register : perform (.rd .reg 0x0F) bench = .refused (.reservedRegister (.rd .reg 0x0F)) := rfl

/-- 20_memory.md R66: STATUS is read-only. -/
theorem test_status_is_read_only : perform (.wr .reg 0x01 0) bench = .refused (.readOnlyRegister (.wr .reg 0x01 0)) := rfl

/-! ## Witnesses: states and operands that meet the hypotheses of each obligation, clause by clause -/

theorem witness_DecodeOfEncode : (Instr.rotl 63).WellFormed ∧ (Instr.sbox 7).WellFormed ∧ (Instr.conv .hex .raw).WellFormed := by decide

theorem witness_EncodeOfDecode : (decode 0x003F0008).toOption = some (.rotl 63) ∧ (decode 0x0007000B).toOption = some (.sbox 7) := by decide

theorem witness_NoTwoRowsMatchOneWord :
    (0 < opcodeTable.length ∧ opcodeTable[0].holds 0x00000001 = true) ∧
    (17 < opcodeTable.length ∧ opcodeTable[17].holds 0x0000030C = true) := by decide

/-- One word for each bullet of R98, and one word that is in none. -/
theorem witness_ListedWordsAreExactlyTheIllegalOnes :
    IllegalShape 0x00000000 ∧ IllegalShape 0x0000000D ∧ IllegalShape 0x00000041 ∧ IllegalShape 0x00000101 ∧ IllegalShape 0x00001001 ∧
    IllegalShape 0x00010001 ∧ IllegalShape 0x00007007 ∧ IllegalShape 0x0008000B ∧ IllegalShape 0x0000000100000001 ∧
    ¬IllegalShape 0x00000001 := by
  refine ⟨?_, ?_, ?_, ?_, ?_, ?_, ?_, ?_, ?_, ?_⟩ <;> unfold IllegalShape <;> decide

theorem witness_PermuteSelectsPositions : (∀ t ∈ [4, 1, 4], 1 ≤ t ∧ t ≤ 4) ∧ 2 < [4, 1, 4].length := by decide

theorem witness_RotateLeftMovesPositions : (27 < 28 ∧ 1 ≤ 28 ∧ 28 ≤ 28) ∧ (0 < 1 ∧ 1 ≤ 1 ∧ 1 ≤ 1) := by decide

theorem witness_FinalPermutationInvertsInitial : (1 ≤ 1 ∧ 1 ≤ 64) ∧ (1 ≤ 64 ∧ 64 ≤ 64) := by decide

theorem witness_FeistelBitByBit : (1 ≤ 1 ∧ 1 ≤ 32) ∧ (1 ≤ 32 ∧ 32 ≤ 32) := by decide

theorem witness_SubkeysComeFromTotalRotations : (1 ≤ 1 ∧ 1 ≤ 16) ∧ (1 ≤ 16 ∧ 16 ≤ 16) := by decide

/-- V25's two keys differ in every parity bit and nowhere else; positions 8 and 64 are parity positions, 1 and 63 are not. -/
theorem witness_ParityBitsDoNotMatter :
    (∀ p, 1 ≤ p → p ≤ 64 → p % 8 ≠ 0 → pos (0x133457799BBCDFF1 : Word) p = pos (0x123556789ABDDEF0 : Word) p) ∧
    (0x133457799BBCDFF1 : Word) ≠ 0x123556789ABDDEF0 ∧ (64 ∉ tablePC1 ∧ 64 % 8 = 0) ∧ (63 ∈ tablePC1 ∧ 63 % 8 ≠ 0) ∧
    ∃ t, exec .derive { bench with keyLen := 64, key := 0x133457799BBCDFF1 } = .next t ∧ t.sk = subkeysV12 := by
  refine ⟨?_, by decide, by decide, by decide, ?_⟩
  rotate_left
  · obtain ⟨t, ht, hp⟩ := exists_next (r := exec .derive { bench with keyLen := 64, key := 0x133457799BBCDFF1 })
      (p := fun t => decide (t.sk = subkeysV12)) (by decide +kernel)
    exact ⟨t, ht, of_decide_eq_true hp⟩
  have h : ∀ p : Fin 65, p.val % 8 ≠ 0 → pos (0x133457799BBCDFF1 : Word) p = pos (0x123556789ABDDEF0 : Word) p := by decide
  exact fun p _ h₂ h₃ => h ⟨p, by omega⟩ h₃

theorem witness_PalindromeSchedulesMakeEncryptionAnInvolution :
    (List.replicate 16 (0 : Subkey)).reverse = List.replicate 16 0 ∧ [1#48, 2#48, 1#48].reverse = [1#48, 2#48, 1#48] := by decide

/-- A table of 2 entries on 8 positions; a 65-bit operand; a 65-entry table; entry 1 unwritten, 0, and 9. -/
theorem witness_PermPermutesByTheHostTable :
    ((withTable 0xB4 8 [8, 1]).aLen.toNat ≤ 64 ∧ (withTable 0xB4 8 [8, 1]).ptabLen.toNat ≤ 64 ∧
      [8#8, 1#8].length = (withTable 0xB4 8 [8, 1]).ptabLen.toNat ∧
      ∀ (j : Nat) (h : j < [8#8, 1#8].length), (withTable 0xB4 8 [8, 1]).ptab.read j = some [8#8, 1#8][j] ∧
        1 ≤ [8#8, 1#8][j].toNat ∧ [8#8, 1#8][j].toNat ≤ (withTable 0xB4 8 [8, 1]).aLen.toNat) ∧
    64 < (withTable 0 65 []).aLen.toNat ∧
    ((withA 0 64).aLen.toNat ≤ 64 ∧ 64 < { withA 0 64 with ptabLen := 65 }.ptabLen.toNat) ∧
    (1 < { withTable 0 8 [1] with ptabLen := 2 }.ptabLen.toNat ∧
      (withTable 0 8 [1]).ptab.read 0 = some 1 ∧ (withTable 0 8 [1]).ptab.read 1 = none) ∧
    (1 < (withTable 0 8 [1, 0]).ptabLen.toNat ∧ (withTable 0 8 [1, 0]).ptab.read 0 = some 1 ∧
      (withTable 0 8 [1, 0]).ptab.read 1 = some 0) ∧
    (0 < (withTable 0 8 [9]).ptabLen.toNat ∧ (withTable 0 8 [9]).ptab.read 0 = some 9 ∧ (withTable 0 8 [9]).aLen.toNat < 9) := by decide

theorem witness_FixedPermutationsSelectPositions :
    (Instr.permIp, 0x00001007, 64, tableIP) ∈ fixedPermutations ∧ (Instr.permPc1, 0x00005007, 63, tablePC1) ∈ fixedPermutations ∧
    (63 ≤ (withA 0 63).aLen.toNat ∧ (withA 0 63).aLen.toNat ≤ 64) ∧ (64 ≤ (withA 0 64).aLen.toNat ∧ (withA 0 64).aLen.toNat ≤ 64) ∧
    64 < (withA 0 65).aLen.toNat ∧ (withA 0 62).aLen.toNat < 63 := by decide

theorem witness_RotlRotatesA :
    (63 < 64 ∧ 63 < (withA 0 64).aLen.toNat ∧ (withA 0 64).aLen.toNat ≤ 64) ∧ (0 < 64 ∧ 64 < (withA 0 65).aLen.toNat) ∧
    (63 < 64 ∧ (withA 0 63).aLen.toNat ≤ 63) ∧ (0 < 64 ∧ (withA 0 0).aLen.toNat ≤ 0) := by decide

theorem witness_XorCombinesPositions :
    ((withAB 0 64 0 64).aLen = (withAB 0 64 0 64).bLen ∧ (withAB 0 64 0 64).aLen.toNat ≤ 64) ∧
    64 < (withAB 0 65 0 64).aLen.toNat ∧ 64 < (withAB 0 64 0 65).bLen.toNat ∧
    ((withAB 0 0 0 64).aLen.toNat ≤ 64 ∧ (withAB 0 0 0 64).bLen.toNat ≤ 64 ∧ (withAB 0 0 0 64).aLen ≠ (withAB 0 0 0 64).bLen) := by decide

theorem witness_CatJoinsAAndB :
    (withAB 0 0 0 64).aLen.toNat + (withAB 0 0 0 64).bLen.toNat ≤ 64 ∧ (withAB 0 64 0 0).aLen.toNat + (withAB 0 64 0 0).bLen.toNat ≤ 64 ∧
    64 < (withAB 0 64 0 1).aLen.toNat + (withAB 0 64 0 1).bLen.toNat := by decide

theorem witness_SboxLooksUpOneEntry : (7 < 8 ∧ (withA 0b111111 6).aLen = 6) ∧ (0 < 8 ∧ (withA 0 5).aLen ≠ 6) := by decide

theorem witness_FeisAppliesTheRoundFunction :
    ((withAB 0 32 0 48).aLen = 32 ∧ (withAB 0 32 0 48).bLen = 48) ∧ ¬((withAB 0 32 0 47).aLen = 32 ∧ (withAB 0 32 0 47).bLen = 48) := by
  decide

theorem witness_DeriveLoadsTheSubkeyFile : (withInput []).keyLen = 64 ∧ { bench with keyLen := 63 }.keyLen ≠ 64 := by decide

theorem witness_EncbEncryptsTheBlockInA :
    ((withSubkeys 0).aLen = 64 ∧ (withSubkeys 0).skw = 0xFFFF) ∧ (withA 0 63).aLen ≠ 64 ∧
    ((withA 0 64).aLen = 64 ∧ { withA 0 64 with skw := 0x7FFF }.skw ≠ 0xFFFF) := by decide

theorem witness_DecbDecryptsTheBlockInA :
    ((withSubkeys 1).aLen = 64 ∧ (withSubkeys 1).skw = 0xFFFF) ∧ (withA 0 65).aLen ≠ 64 ∧
    ((withA 0 64).aLen = 64 ∧ { withA 0 64 with skw := 0xFFFE }.skw ≠ 0xFFFF) := by decide

theorem witness_EncbThenDecbGivesTheBlockBack :
    (withSubkeys 0x0123456789ABCDEF).aLen = 64 ∧ (withSubkeys 0x0123456789ABCDEF).skw = 0xFFFF := by decide

theorem inputIs_withInput (us : List CodeUnit) (h : us.length ≤ 4096) : InputIs (withInput us) us := by
  refine ⟨?_, h, fun j hj => ?_⟩
  · show us.length = (BitVec.ofNat 32 us.length).toNat
    rw [BitVec.toNat_ofNat, Nat.mod_eq_of_lt (by omega)]
  · show (Memory.writeFrom [] 0 us).read j = _
    rw [Memory.read_writeFrom, if_pos (by omega)]
    simp [hj]

/-- "AF" is a message of either form; code unit 255 is the largest of a raw message. -/
theorem witness_MessageCommandsTransformEveryBlock :
    (InputIs (withInput [0x41, 0x46]) [0x41, 0x46] ∧ (∀ u ∈ [0x41#32, 0x46#32], unitOk .hex u = true) ∧
      (withInput [0x41, 0x46]).keyLen = 64) ∧
    (InputIs (withInput [0xFF]) [0xFF] ∧ (∀ u ∈ [0xFF#32], unitOk .raw u = true) ∧ (withInput [0xFF]).keyLen = 64) :=
  ⟨⟨inputIs_withInput _ (by simp), by simp [unitOk, hexVal], by decide⟩, inputIs_withInput _ (by simp), by simp [unitOk], by decide⟩

theorem witness_ConvReencodesTheMessage :
    (InputIs (withInput [0x66]) [0x66] ∧ ∀ u ∈ [0x66#32], unitOk .hex u = true) ∧
    (InputIs (withInput []) [] ∧ ∀ u ∈ ([] : List CodeUnit), unitOk .raw u = true) :=
  ⟨⟨inputIs_withInput _ (by simp), by simp [unitOk, hexVal]⟩, inputIs_withInput _ (by simp), by simp⟩

theorem witness_ConvOutputElementByElement :
    (∀ u ∈ [0x00#32, 0xFF#32], unitOk .raw u = true) ∧ (∀ u ∈ [0x30#32, 0x39#32, 0x41#32, 0x46#32, 0x61#32, 0x66#32], unitOk .hex u = true) ∧
    0 < ([0x30#32].length + 1) / 2 := ⟨by simp [unitOk], by simp [unitOk, hexVal], by decide⟩

/-- MSG_CAP + 1 elements; element 1 unwritten; element 0 above 255, and no hex digit; a good message with another KEY_LEN. -/
theorem witness_MessageErrorsInOrder :
    { bench with msgInLen := 4097 }.caps.toNat < { bench with msgInLen := 4097 }.msgInLen.toNat ∧
    ({ withInput [0x41] with msgInLen := 2 }.msgInLen.toNat ≤ 4096 ∧ 1 < { withInput [0x41] with msgInLen := 2 }.msgInLen.toNat ∧
      GoodBefore .raw { withInput [0x41] with msgInLen := 2 } 1 ∧ { withInput [0x41] with msgInLen := 2 }.min.read 1 = none) ∧
    (0 < (withInput [0x100]).msgInLen.toNat ∧ GoodBefore .raw (withInput [0x100]) 0 ∧ (withInput [0x100]).min.read 0 = some 0x100 ∧
      unitOk .raw 0x100 = false) ∧
    (GoodBefore .hex (withInput [0x47]) 0 ∧ (withInput [0x47]).min.read 0 = some 0x47 ∧ unitOk .hex 0x47 = false) ∧
    (GoodBefore .hex { withInput [0x41] with keyLen := 63 } 1 ∧ { withInput [0x41] with keyLen := 63 }.keyLen ≠ 64) := by
  have h : ∀ (e : Enc) (s : State), s.min.read 0 = some 0x41 → GoodBefore e s 1 := fun e s hr k hk => by
    obtain rfl : k = 0 := by omega
    exact ⟨0x41, hr, by cases e <;> rfl⟩
  refine ⟨by decide, ⟨by decide, by decide, h _ _ rfl, rfl⟩, ⟨by decide, fun k hk => absurd hk (Nat.not_lt_zero k), rfl, by decide⟩,
    ⟨fun k hk => absurd hk (Nat.not_lt_zero k), rfl, by decide⟩, h _ _ rfl, by decide⟩

theorem witness_EncodeWritesTheValueInDigits : Enc.hex = .hex ∧ (0x41 : Byte) ∈ encodeMessage .hex ⟨4, 10⟩ := by decide

theorem witness_BlocksAreIndependent :
    (2 < [1#64, 2#64, 1#64].length ∧ 0 < [1#64, 2#64, 1#64].length ∧ [1#64, 2#64, 1#64][0]? = [1#64, 2#64, 1#64][2]?) := by decide

theorem witness_OutputLengthsFitMout : [0x41#32].length ≤ 1 ∧ ([] : List CodeUnit).length ≤ 1 := by decide

/-- V50's ciphertext, as code units. -/
def cipherV50 : List CodeUnit := [0x30, 0x32, 0x34, 0x43, 0x31, 0x34, 0x32, 0x41, 0x36, 0x32, 0x31, 0x45, 0x39, 0x39, 0x39, 0x45]

/-- The state V50 ends in, when ENCM raw, hex is run on the message "A". -/
def afterV50 : State :=
  { withInput [0x41] with
    mout := Memory.writeFrom [] 0 (cipherV50.map (fun c => c.setWidth 8)), msgOutLen := 16,
    status := { done := true, err := false, errSticky := false, errCode := 0, lastOp := 0 } }

theorem encm_V50 : exec (.encm .raw .hex) (withInput [0x41]) = .next afterV50 := next_of (by decide +kernel)

theorem witness_DecmInvertsEncm :
    InputIs (withInput [0x41]) [0x41] ∧ (∀ u ∈ [0x41#32], unitOk .raw u = true) ∧ (withInput [0x41]).keyLen = 64 ∧
    (withInput [0x41]).caps.toNat ≤ 2 ^ 30 ∧ exec (.encm .raw .hex) (withInput [0x41]) = .next afterV50 ∧
    (withInput cipherV50).key = (withInput [0x41]).key ∧ (withInput cipherV50).keyLen = 64 ∧
    (withInput cipherV50).msgInLen = afterV50.msgOutLen ∧ afterV50.msgOutLen.toNat ≤ (withInput cipherV50).caps.toNat ∧
    ∀ j, j < afterV50.msgOutLen.toNat → (withInput cipherV50).min.read j = (afterV50.mout.read j).map (fun c => c.setWidth 32) :=
  ⟨inputIs_withInput _ (by simp), by simp [unitOk], by decide, by decide, encm_V50, by decide, by decide, by decide, by decide, by decide⟩

/-- The hypotheses are those of the statement before, with the forms fixed. -/
theorem witness_TextComesBackWithItsPadding :
    InputIs (withInput [0x41]) [0x41] ∧ (∀ u ∈ [0x41#32], unitOk .raw u = true) ∧ (withInput [0x41]).keyLen = 64 ∧
    (withInput [0x41]).caps.toNat ≤ 2 ^ 30 ∧ exec (.encm .raw .hex) (withInput [0x41]) = .next afterV50 ∧
    (withInput cipherV50).key = (withInput [0x41]).key ∧ (withInput cipherV50).keyLen = 64 ∧
    (withInput cipherV50).msgInLen = afterV50.msgOutLen ∧ afterV50.msgOutLen.toNat ≤ (withInput cipherV50).caps.toNat ∧
    ∀ j, j < afterV50.msgOutLen.toNat → (withInput cipherV50).min.read j = (afterV50.mout.read j).map (fun c => c.setWidth 32) :=
  witness_DecmInvertsEncm

/-- One command of each kind, and a MOUT element beyond MSG_OUT_LEN. -/
theorem witness_CommandsWriteOnlyTheirResults :
    (∃ t, exec .xor bench = .next t ∧ writesY .xor = true) ∧ (∃ t, exec .derive bench = .next t) ∧
    ∃ t, exec (.conv .raw .hex) (withInput [0x41]) = .next t ∧ writesMout (.conv .raw .hex) = true ∧ bench.caps.toNat ≤ 2 ^ 30 ∧
      t.msgOutLen.toNat ≤ 2 := by
  refine ⟨⟨_, rfl, rfl⟩, ⟨_, rfl⟩, ?_⟩
  obtain ⟨t, ht, hp⟩ := exists_next (r := exec (.conv .raw .hex) (withInput [0x41])) (p := fun t => decide (t.msgOutLen.toNat ≤ 2)) (by decide)
  exact ⟨t, ht, rfl, by decide, of_decide_eq_true hp⟩

/-- A command that fails, and a word that selects none. -/
theorem witness_ErrorsChangeStatusOnly :
    (∃ t, runCommand 0x00000002 bench = .next t ∧ t.status.err = true) ∧ ∃ t, runCommand 0x00000000 bench = .next t ∧ t.status.err = true :=
  ⟨exists_next (by decide), exists_next (by decide)⟩

theorem witness_SuccessIsRecorded : ∃ t, runCommand 0x00000009 bench = .next t ∧ (!t.status.err) = true := exists_next (by decide)

/-- The host reads STATUS, or resets the core, after an error. -/
theorem witness_StickyErrorLastsUntilReset :
    (∃ t, runCommand 0x00000000 bench = .next t ∧ t.status.err = true) ∧
    (∃ t, step ((bench.failed .illegalCommand).setPending [.rd .reg 1]) = .next t ∧
      ¬nextIs ((bench.failed .illegalCommand).setPending [.rd .reg 1]) .reset ∧
      ((bench.failed .illegalCommand).setPending [.rd .reg 1]).status.errSticky = true) ∧
    ∃ t, step ((bench.failed .illegalCommand).setPending [.reset]) = .next t ∧
      nextIs ((bench.failed .illegalCommand).setPending [.reset]) .reset :=
  ⟨exists_next (by decide), ⟨_, rfl, fun ⟨_, h⟩ => (by simp at h), rfl⟩, _, rfl, [], rfl⟩

theorem witness_RepeatedFailureIsTheSame : ∃ t, runCommand 0x0000000B bench = .next t ∧ t.status.err = true := exists_next (by decide)

theorem witness_NoCommandReadsStatus : (∃ t, exec .xor bench = .next t) ∧ ∃ t, exec .encb bench = .next t := ⟨⟨_, rfl⟩, _, rfl⟩

/-- A success of a command that writes Y, an error of one, and a command that does not write Y. -/
theorem witness_NoCommandReadsY :
    (∃ t, exec .xor bench = .next t ∧ (writesY .xor = true ∧ t.status.err = false)) ∧
    (∃ t, exec .encb bench = .next t ∧ ¬(writesY .encb = true ∧ t.status.err = false)) ∧
    ∃ t, exec .derive bench = .next t ∧ ¬(writesY .derive = true ∧ t.status.err = false) :=
  ⟨⟨_, rfl, rfl, rfl⟩, ⟨_, rfl, fun h => nomatch h.2⟩, _, rfl, fun h => nomatch h.1⟩

theorem witness_MessageCommandsLeaveTheEngineAlone :
    writesMout (.encm .raw .hex) = true ∧ exec (.encm .raw .hex) (withInput [0x41]) = .next afterV50 := ⟨rfl, encm_V50⟩

theorem witness_StepRunsTheDecodedCommand :
    (bench.setPending [.wr .reg 0 0x0000000A, .rd .reg 8]).pending = .wr .reg 0 0x0000000A :: [.rd .reg 8] ∧
    (decode 0x0000000A).toOption = some .cat := by decide

theorem witness_StepPerformsTheNextAccess :
    (bench.setPending [.reset]).pending = .reset :: [] ∧ (bench.setPending [.wr .min 0 1]).pending = .wr .min 0 1 :: [] ∧
    bench.pending = [] := by decide

theorem witness_RegisterMapHasNoOverlap :
    Reg.ofIndex 0x10 = some (.sk 0) ∧ Reg.ofIndex 0x1F = some (.sk 15) ∧ Reg.ofIndex 0x20 = some (.ptab 0) ∧
    Reg.ofIndex 0x5F = some (.ptab 63) ∧ Reg.ofIndex 0x60 = none ∧ Reg.ofIndex 0x0F = none ∧
    { bench with ptab := [(0, 1), (63, 64)] }.ptab.read (0 : Fin 64) = some 1 ∧
    { bench with ptab := [(0, 1), (63, 64)] }.ptab.read (63 : Fin 64) = some 64 := by decide

theorem witness_RegisterWritesStoreTheLowBits :
    writableWidth .key = some 64 ∧ writableWidth .keyLen = some 8 ∧ writableWidth .msgInLen = some 32 ∧ writableWidth (.sk 0) = some 48 ∧
    writableWidth (.sk 15) = some 48 ∧ writableWidth (.ptab 63) = some 8 ∧ Reg.ptabLen ≠ .ptab 63 ∧ Reg.ptabLen ≠ .skw := by decide

/-- V50's message at element 0, and its ciphertext at the first and the last readable element of MOUT; a write of the last MIN element. -/
theorem witness_MinHoldsWhatTheHostWrites :
    (0 < (withInput [0x41]).caps.toNat ∧ (withInput [0x41]).min.read 0 = some 0x41) ∧
    (0 < afterV50.msgOutLen.toNat ∧ afterV50.mout.read 0 = some 0x30) ∧ (15 < afterV50.msgOutLen.toNat ∧ afterV50.mout.read 15 = some 0x45) ∧
    (0 < bench.caps.toNat ∧ 4095 < bench.caps.toNat ∧ (4094 : Nat) ≠ 4095) := by decide

theorem bench_messageOk : bench.MessageOk := ⟨by decide, by decide, by decide, fun i h => absurd h (Nat.not_lt_zero i)⟩

/-- Every line of R66 at its first index, and accesses that are in none. -/
theorem witness_RefusedAccessesAreExactlyTheListed :
    bench.MessageOk ∧ (0x60 ≤ 0xFF ∧ 0x0F ≤ 0xFF) ∧
    RefusedAccess bench (.rd .reg 0x0F) ∧ RefusedAccess bench (.rd .reg 0x60) ∧ RefusedAccess bench (.rd .reg 0x20) ∧
    RefusedAccess bench (.wr .reg 0x01 0) ∧ RefusedAccess bench (.wr .reg 0x0E 0) ∧ RefusedAccess bench (.rd .min 4096) ∧
    RefusedAccess bench (.rd .min 0) ∧ RefusedAccess bench (.wr .min 4096 0) ∧ RefusedAccess bench (.rd .mout 0) ∧
    RefusedAccess bench (.wr .mout 0 0) ∧
    ¬RefusedAccess bench (.rd .reg 0x1F) ∧ ¬RefusedAccess bench (.wr .reg 0x5F 0) ∧ ¬RefusedAccess bench (.wr .min 4095 0) ∧
    ¬RefusedAccess bench .reset := by
  refine ⟨bench_messageOk, by decide, ?_, ?_, ?_, ?_, ?_, ?_, ?_, ?_, ?_, ?_, ?_, ?_, ?_, ?_⟩ <;> unfold RefusedAccess <;> decide

theorem witness_OnlyCmdWritesHaveSideEffects :
    (∃ t, perform (.rd .reg 1) bench = .next t) ∧
    (¬(Space.reg = .reg ∧ (0x10 : Nat) = 0) ∧ ∃ t, perform (.wr .reg 0x10 7) bench = .next t) ∧
    (¬(Space.reg = .reg ∧ (0x5F : Nat) = 0) ∧ ∃ t, perform (.wr .reg 0x5F 7) bench = .next t) ∧
    (¬(Space.min = .reg ∧ (0 : Nat) = 0) ∧ ∃ t, perform (.wr .min 0 7) bench = .next t) :=
  ⟨⟨_, rfl⟩, ⟨by decide, _, rfl⟩, ⟨by decide, _, rfl⟩, by decide, _, rfl⟩

/-- A command runs while a subkey, a table entry and a message element are written. -/
theorem witness_WrittenBitsLastUntilReset :
    let s := { (withTable 0 8 [1]) with skw := 0x8001, min := [(0, 0x41)], pending := [Access.wr .reg 0 0x00000009] }
    (∃ t, step s = .next t ∧ (t.status.done = true) = true) ∧ ¬nextIs s .reset ∧ s.skw.getLsbD (15 : Fin 16) = true ∧
    s.ptab.written 0 = true ∧ s.min.written 0 = true := by
  refine ⟨?_, fun ⟨_, h⟩ => (by simp at h), by decide, by decide, by decide⟩
  obtain ⟨t, ht, hp⟩ := exists_next (r := step
    { (withTable 0 8 [1]) with skw := 0x8001, min := [(0, 0x41)], pending := [Access.wr .reg 0 0x00000009] })
    (p := fun t => t.status.done) (by decide)
  exact ⟨t, ht, by simpa using hp⟩

theorem witness_CommandsOnResetValues :
    (7 < 8 ∧ 63 < 64) ∧ Instr.permPc2 ∈ [Instr.permIp, .permFp, .permE, .permP, .permPc1, .permPc2] := by decide

/-- The invariant holds of a core that has been given MSG_CAP = 4096, and its next step runs a command. -/
theorem witness_StepKeepsTheInvariant :
    (bench.setPending [.wr .reg 0 0x00000009]).Inv ∧ ∃ t, step (bench.setPending [.wr .reg 0 0x00000009]) = .next t ∧ t.status.done = true := by
  refine ⟨⟨⟨rfl, rfl, rfl, ?_, ?_, ?_⟩,
    ⟨bench_messageOk.caps_pos, bench_messageOk.caps_le, bench_messageOk.mout_len, bench_messageOk.mout_value⟩, ⟨by decide, by decide⟩, ⟨by decide, by decide, by decide, by decide, by decide, ?_⟩, ?_⟩,
    exists_next (by decide)⟩
  · exact fun j h => nomatch h
  · exact fun j h => nomatch h
  · exact fun j h => nomatch h
  · exact fun _ => rfl
  · unfold State.ScheduleOk
    decide

theorem witness_LdmsgLoadsTheMessage : [0x41#64, 0x42#64].length ≤ bench.caps.toNat ∧ ([] : List Word).length ≤ bench.caps.toNat := by decide

end Sys2Proof.Tests
end

section
/-! PROOFS. The invariant (10_state.md R24, R28, R33, R40; 20_memory.md R60, R63, R64): the bound on a message's output, what each update
keeps of each part of the invariant, and the step. -/

namespace Sys2Proof.Machine

/-- Bounds a message's output by its number of bits, whichever the encoding (44_message_framer.md R255, R256). -/
theorem four_mul_encodeMessage_length_le (e : Enc) (q : BitSeq) : 4 * (encodeMessage e q).length ≤ q.len + 3 := by
  cases e with
  | raw =>
    have := padBits_lt q.len (show 0 < 8 by decide)
    rw [encodeMessage_raw_length]
    omega
  | hex =>
    have := padBits_lt q.len (show 0 < 4 by decide)
    rw [encodeMessage_hex_length]
    omega

theorem transformBlocks_frame_len_le (f : Word → List Subkey → Word) (ks : List Subkey) (q : BitSeq) :
    (transformBlocks f ks (frame q)).len ≤ q.len + 63 := by
  have := padBits_lt q.len (show 0 < 64 by decide)
  rw [transformBlocks_len, frame_length]
  omega

theorem decodeMessage_len_le {s : State} {e : Enc} {q : BitSeq} (h : decodeMessage s e = .ok q) :
    q.len ≤ 8 * s.caps.toNat := by
  obtain ⟨hlen, hcap⟩ := decodeMessage_len h
  cases e <;> simp only [unitLen] at hlen <;> omega

theorem cipherMessage_length_le {f : Word → List Subkey → Word} {ie oe : Enc} {s : State} {o : List Byte}
    (h : cipherMessage f ie oe s = .ok o) : o.length ≤ 2 * s.caps.toNat + 16 := by
  obtain ⟨q, hq, h⟩ := bind_eq_ok h
  obtain ⟨key, -, h⟩ := bind_eq_ok h
  cases h
  have hdec := decodeMessage_len_le hq
  have hblocks := transformBlocks_frame_len_le f (keySchedule key) q
  have hout := four_mul_encodeMessage_length_le oe (transformBlocks f (keySchedule key) (frame q))
  omega

theorem convMessage_length_le {ie oe : Enc} {s : State} {o : List Byte} (h : convMessage ie oe s = .ok o) :
    o.length ≤ 2 * s.caps.toNat + 16 := by
  obtain ⟨q, hq, h⟩ := bind_eq_ok h
  cases h
  have hdec := decodeMessage_len_le hq
  have hout := four_mul_encodeMessage_length_le oe q
  omega

/-- The output of every command fits MOUT (20_memory.md R64). -/
theorem outputOf_length_le {i : Instr} {s : State} {o : List Byte} (h : outputOf i s = .ok o) :
    o.length ≤ 2 * s.caps.toNat + 16 := by
  cases i with
  | encm => exact cipherMessage_length_le h
  | decm => exact cipherMessage_length_le h
  | conv => exact convMessage_length_le h
  | _ => cases h; exact Nat.zero_le _

/-- Everything a data register write can do: store a subkey, store a PTAB entry, or store in one of the registers that nothing but the host
writes. -/
theorem writeReg_next {s t : State} {r : Reg} {v : Word} (h : s.writeReg r v = some t) :
    (∃ k, r = .sk k ∧ t = s.writeSk k v) ∨ (∃ j, r = .ptab j ∧ t = s.writePtab j v) ∨
    t = { s with key := t.key, keyLen := t.keyLen, a := t.a, aLen := t.aLen, b := t.b, bLen := t.bLen, ptabLen := t.ptabLen,
                 msgInLen := t.msgInLen } := by
  cases r with
  | sk k => cases h; exact .inl ⟨k, rfl, rfl⟩
  | ptab j => cases h; exact .inr (.inl ⟨j, rfl, rfl⟩)
  | cmd | status | y | yLen | skw | msgOutLen | caps => exact nomatch h
  | _ => cases h; exact .inr (.inr rfl)

theorem getLsbD_skw_writeSk (s : State) (r k : Fin 16) (v : Word) :
    (s.writeSk r v).skw.getLsbD k = (s.skw.getLsbD k || decide (r = k)) := by
  have hbit : (1#16 <<< r.val).getLsbD k = decide (r = k) := by
    revert r k
    decide
  rw [State.writeSk_skw, BitVec.getLsbD_or, hbit]

theorem getElem_sk_writeSk (s : State) (r k : Fin 16) (v : Word) :
    (s.writeSk r v).sk[k] = if r = k then v.setWidth 48 else s.sk[k] := by
  simp only [State.writeSk_sk, Fin.getElem_fin, Vector.getElem_set, Fin.ext_iff]

theorem getLsbD_skw_setSchedule (s : State) (key : Word) (r : Fin 16) : (s.setSchedule key).skw.getLsbD r = true := by
  rw [State.setSchedule_skw]
  revert r
  decide

/-! ## The parts of the invariant depend on their own fields only -/

theorem State.BuffersOk.congr {s t : State} (h : s.BuffersOk) (hptab : t.ptab = s.ptab) (hmin : t.min = s.min)
    (hmout : t.mout = s.mout) (hcaps : t.caps = s.caps) : t.BuffersOk :=
  ⟨hptab ▸ h.ptab_wf, hmin ▸ h.min_wf, hmout ▸ h.mout_wf, hptab ▸ h.ptab_range, hcaps ▸ hmin ▸ h.min_range,
    hcaps ▸ hmout ▸ h.mout_range⟩

theorem State.MessageOk.congr {s t : State} (h : s.MessageOk) (hcaps : t.caps = s.caps) (hlen : t.msgOutLen = s.msgOutLen)
    (hmout : t.mout = s.mout) : t.MessageOk :=
  ⟨hcaps ▸ h.caps_pos, hcaps ▸ h.caps_le, hcaps ▸ hlen ▸ h.mout_len, hlen ▸ hmout ▸ h.mout_value⟩

theorem State.ResultOk.congr {s t : State} (h : s.ResultOk) (hy : t.y = s.y) (hlen : t.yLen = s.yLen) : t.ResultOk :=
  ⟨hlen ▸ h.len, hlen ▸ hy ▸ h.bits⟩

theorem State.ScheduleOk.congr {s t : State} (h : s.ScheduleOk) (hskw : t.skw = s.skw) (hsk : t.sk = s.sk) : t.ScheduleOk := by
  intro r hr
  rw [hsk]
  exact h r (hskw ▸ hr)

theorem State.StatusOk.congr {s t : State} (h : s.StatusOk) (hst : t.status = s.status) (hcmd : t.cmd = s.cmd) : t.StatusOk :=
  ⟨hst ▸ h.code_le, hst ▸ h.err_iff, hst ▸ h.sticky, hst ▸ h.done, hcmd ▸ hst ▸ h.last_op, hcmd ▸ hst ▸ h.fresh⟩

/-! ## What each update keeps of the invariant -/

theorem State.BuffersOk.setMin {s : State} (h : s.BuffersOk) {i : Nat} (hi : i < s.caps.toNat) (v : Word) :
    (s.setMin i v).BuffersOk where
  ptab_wf := h.ptab_wf
  min_wf := setMin_wf s i v h.min_wf
  mout_wf := h.mout_wf
  ptab_range := h.ptab_range
  min_range j hj := by
    rw [State.setMin_min, Memory.written_write, Bool.or_eq_true, decide_eq_true_eq] at hj
    rcases hj with rfl | hj
    · exact hi
    · exact h.min_range j hj
  mout_range := h.mout_range

theorem State.BuffersOk.writePtab {s : State} (h : s.BuffersOk) (j : Fin 64) (v : Word) : (s.writePtab j v).BuffersOk where
  ptab_wf := writePtab_wf s j v h.ptab_wf
  min_wf := h.min_wf
  mout_wf := h.mout_wf
  ptab_range k hk := by
    rw [State.writePtab_ptab, Memory.written_write, Bool.or_eq_true, decide_eq_true_eq] at hk
    rcases hk with rfl | hk
    · exact j.isLt
    · exact h.ptab_range k hk
  min_range := h.min_range
  mout_range := h.mout_range

theorem State.BuffersOk.setMout {s : State} (h : s.BuffersOk) {o : List Byte} (ho : o.length ≤ 2 * s.caps.toNat + 16) :
    (s.setMout o).BuffersOk where
  ptab_wf := h.ptab_wf
  min_wf := h.min_wf
  mout_wf := setMout_wf s o h.mout_wf
  ptab_range := h.ptab_range
  min_range := h.min_range
  mout_range j hj := by
    rw [State.setMout_mout, Memory.written_writeFrom, Bool.or_eq_true, decide_eq_true_eq] at hj
    rcases hj with hj | hj
    · rw [State.setMout_caps]
      omega
    · exact h.mout_range j hj

theorem State.MessageOk.setMout {s : State} (h : s.MessageOk) {o : List Byte} (ho : o.length ≤ 2 * s.caps.toNat + 16) :
    (s.setMout o).MessageOk := by
  have hlen : (BitVec.ofNat 32 o.length).toNat ≤ o.length := by
    rw [BitVec.toNat_ofNat]
    exact Nat.mod_le _ _
  refine ⟨h.caps_pos, h.caps_le, hlen.trans ho, fun i hi => ?_⟩
  have hio : i < o.length := hi.trans_le hlen
  simp [Memory.written_writeFrom, hio]

/-- A length up to 64 is not cut off in Y_LEN (notes/assumptions/18.md), and zero-extension adds no bits (10_state.md R33). -/
theorem State.resultOk_setY (s : State) {q : BitSeq} (hq : q.len ≤ 64) : (s.setY q).ResultOk := by
  have hlen : (s.setY q).yLen.toNat = q.len := by
    rw [State.setY_yLen, BitVec.toNat_ofNat]
    omega
  refine ⟨hlen.le.trans hq, ?_⟩
  rw [hlen, State.setY_y, BitVec.toNat_setWidth]
  exact (Nat.mod_le _ _).trans_lt q.bits.isLt

theorem State.scheduleOk_setSchedule (s : State) (key : Word) : (s.setSchedule key).ScheduleOk := by
  intro r hr
  rw [getLsbD_skw_setSchedule] at hr
  exact nomatch hr

theorem State.ScheduleOk.writeSk {s : State} (h : s.ScheduleOk) (r : Fin 16) (v : Word) : (s.writeSk r v).ScheduleOk := by
  intro k hk
  rw [getLsbD_skw_writeSk, Bool.or_eq_false_iff, decide_eq_false_iff_not] at hk
  obtain ⟨hclear, hne⟩ := hk
  rw [getElem_sk_writeSk, if_neg hne]
  exact h k hclear

/-- The codes of the errors are 1 to 11; 0 says that there was none (60_exceptions.md R300). -/
theorem CmdError.code_ne_zero (e : CmdError) : e.code ≠ 0 := by
  cases e <;> decide

theorem CmdError.code_le (e : CmdError) : e.code.toNat ≤ 11 := by
  cases e <;> decide

theorem State.statusOk_failed (s : State) (e : CmdError) : (s.failed e).StatusOk where
  code_le := e.code_le
  err_iff := ⟨fun _ => e.code_ne_zero, fun _ => rfl⟩
  sticky _ := rfl
  done _ := rfl
  last_op := rfl
  fresh h := nomatch h

theorem State.statusOk_succeeded (s : State) : s.succeeded.StatusOk where
  code_le := Nat.zero_le _
  err_iff := ⟨fun h => (nomatch h), fun h => absurd rfl h⟩
  sticky h := nomatch h
  done _ := rfl
  last_op := rfl
  fresh h := nomatch h

/-! ## Commands keep the invariant -/

/-- The invariant without STATUS: all that a command needs of a state whose CMD already holds a new word (60_exceptions.md R302). -/
structure State.DataOk (s : State) : Prop where
  buffers : s.BuffersOk
  message : s.MessageOk
  result : s.ResultOk
  schedule : s.ScheduleOk

theorem State.Inv.dataOk {s : State} (h : s.Inv) : s.DataOk := ⟨h.buffers, h.message, h.result, h.schedule⟩

theorem State.DataOk.inv {s : State} (h : s.DataOk) (hst : s.StatusOk) : s.Inv :=
  ⟨h.buffers, h.message, h.result, hst, h.schedule⟩

/-- CMD, STATUS, the registers that only the host writes and the host's own fields do not matter to `DataOk`. -/
theorem State.DataOk.congr {s t : State} (h : s.DataOk)
    (ht : t = { t with y := s.y, yLen := s.yLen, skw := s.skw, sk := s.sk, ptab := s.ptab, msgOutLen := s.msgOutLen, caps := s.caps,
                       min := s.min, mout := s.mout }) : t.DataOk := by
  rw [ht]
  exact ⟨h.buffers.congr rfl rfl rfl rfl, h.message.congr rfl rfl rfl, h.result.congr rfl rfl, h.schedule.congr rfl rfl⟩

theorem State.DataOk.setSchedule {s : State} (h : s.DataOk) (key : Word) : (s.setSchedule key).DataOk :=
  ⟨h.buffers.congr rfl rfl rfl rfl, h.message.congr rfl rfl rfl, h.result.congr rfl rfl, s.scheduleOk_setSchedule key⟩

theorem State.DataOk.setY {s : State} (h : s.DataOk) {q : BitSeq} (hq : q.len ≤ 64) : (s.setY q).DataOk :=
  ⟨h.buffers.congr rfl rfl rfl rfl, h.message.congr rfl rfl rfl, s.resultOk_setY hq, h.schedule.congr rfl rfl⟩

theorem State.DataOk.setMout {s : State} (h : s.DataOk) {o : List Byte} (ho : o.length ≤ 2 * s.caps.toNat + 16) :
    (s.setMout o).DataOk :=
  ⟨h.buffers.setMout ho, h.message.setMout ho, h.result.congr rfl rfl, h.schedule.congr rfl rfl⟩

theorem State.DataOk.failed_inv {s : State} (h : s.DataOk) (e : CmdError) : (s.failed e).Inv :=
  (h.congr rfl).inv (s.statusOk_failed e)

theorem State.DataOk.succeeded_inv {s : State} (h : s.DataOk) : s.succeeded.Inv :=
  (h.congr rfl).inv s.statusOk_succeeded

theorem exec_keeps_inv {i : Instr} {s t : State} (hs : s.DataOk) (h : exec i s = .next t) : t.Inv := by
  rcases exec_next h with ⟨e, rfl⟩ | ⟨-, -, rfl⟩ | ⟨-, q, -, hq, rfl⟩ | ⟨-, o, ho, rfl⟩
  · exact hs.failed_inv e
  · exact (hs.setSchedule s.key).succeeded_inv
  · exact (hs.setY hq).succeeded_inv
  · exact (hs.setMout (outputOf_length_le ho)).succeeded_inv

theorem runCommand_keeps_inv {w : Word} {s t : State} (hs : s.Inv) (h : runCommand w s = .next t) : t.Inv := by
  have hcmd : (s.setCmd w).DataOk := hs.dataOk.congr rfl
  rcases runCommand_next h with ⟨e, rfl⟩ | ⟨i, -, hi, -, -⟩
  · exact hcmd.failed_inv e
  · exact exec_keeps_inv hcmd hi

/-! ## Accesses and steps keep the invariant -/

/-- CAPS is the only register that survives reset, and a legal capacity is all that the invariant asks of it (10_state.md R42). -/
theorem State.resetCore_inv {s : State} (hpos : 1 ≤ s.caps.toNat) (hle : s.caps.toNat ≤ 2 ^ 30) : s.resetCore.Inv where
  buffers := ⟨rfl, rfl, rfl, fun _ h => (nomatch h), fun _ h => (nomatch h), fun _ h => nomatch h⟩
  message := ⟨hpos, hle, Nat.zero_le _, fun i h => absurd h (Nat.not_lt_zero i)⟩
  result := ⟨Nat.zero_le _, Nat.one_pos⟩
  status := ⟨Nat.zero_le _, ⟨fun h => (nomatch h), fun h => absurd rfl h⟩, fun h => (nomatch h), fun h => (nomatch h), rfl,
    fun _ => rfl⟩
  schedule _ _ := Vector.getElem_replicate _

theorem State.Inv.setRead {s : State} (h : s.Inv) (v : Word) : (s.setRead v).Inv :=
  (h.dataOk.congr rfl).inv (h.status.congr rfl rfl)

theorem State.Inv.setPending {s : State} (h : s.Inv) (l : List Access) : (s.setPending l).Inv :=
  (h.dataOk.congr rfl).inv (h.status.congr rfl rfl)

theorem State.Inv.setMin {s : State} (h : s.Inv) {i : Nat} (hi : i < s.caps.toNat) (v : Word) : (s.setMin i v).Inv :=
  ⟨h.buffers.setMin hi v, h.message.congr rfl rfl rfl, h.result.congr rfl rfl, h.status.congr rfl rfl, h.schedule.congr rfl rfl⟩

theorem State.Inv.writeSk {s : State} (h : s.Inv) (r : Fin 16) (v : Word) : (s.writeSk r v).Inv :=
  ⟨h.buffers.congr rfl rfl rfl rfl, h.message.congr rfl rfl rfl, h.result.congr rfl rfl, h.status.congr rfl rfl, h.schedule.writeSk r v⟩

theorem State.Inv.writePtab {s : State} (h : s.Inv) (j : Fin 64) (v : Word) : (s.writePtab j v).Inv :=
  ⟨h.buffers.writePtab j v, h.message.congr rfl rfl rfl, h.result.congr rfl rfl, h.status.congr rfl rfl, h.schedule.congr rfl rfl⟩

theorem writeReg_keeps_inv {s t : State} {r : Reg} {v : Word} (hs : s.Inv) (h : s.writeReg r v = some t) : t.Inv := by
  rcases writeReg_next h with ⟨k, -, rfl⟩ | ⟨j, -, rfl⟩ | ht
  · exact hs.writeSk k v
  · exact hs.writePtab j v
  · rw [ht]
    exact (hs.dataOk.congr rfl).inv (hs.status.congr rfl rfl)

theorem perform_keeps_inv {a : Access} {s t : State} (hs : s.Inv) (h : perform a s = .next t) : t.Inv := by
  rcases perform_next h with ⟨-, rfl⟩ | ⟨_, _, v, -, rfl⟩ | ⟨i, v, -, hi, rfl⟩ | ⟨_, v, -, -, hc⟩ | ⟨_, v, r, -, -, -, hw⟩
  · exact State.resetCore_inv hs.message.caps_pos hs.message.caps_le
  · exact hs.setRead v
  · exact hs.setMin hi v
  · exact runCommand_keeps_inv hs hc
  · exact writeReg_keeps_inv hs hw

theorem msgCap_bounds : 1 ≤ Config.msgCap ∧ Config.msgCap ≤ 2 ^ 30 := by
  unfold Config.msgCap
  have := Nat.mod_lt Config.msgCapSeed (show 0 < 2 ^ 30 by decide)
  omega

@[simp] theorem State.reset_caps_toNat : State.reset.caps.toNat = Config.msgCap := by
  obtain ⟨-, hle⟩ := msgCap_bounds
  rw [State.reset_caps, BitVec.toNat_ofNat]
  omega

theorem State.resetCore_reset : State.reset.resetCore = State.reset := rfl

end Sys2Proof.Machine

namespace Sys2Proof.Claims
open Sys2Proof.Machine

/-- Settles O58, by the cases of a step: no pending access, or one that is performed. -/
theorem stepKeepsTheInvariant : Obligations.StepKeepsTheInvariant := by
  intro s t hs h
  rcases step_next h with ⟨-, rfl⟩ | ⟨a, rest, -, hp⟩
  · exact hs
  · exact perform_keeps_inv (hs.setPending rest) hp

/-- Settles O57: the reset state is what reset leaves, and MSG_CAP is a legal capacity. -/
theorem invariantAtReset : Obligations.InvariantAtReset := by
  unfold Obligations.InvariantAtReset
  obtain ⟨hpos, hle⟩ := msgCap_bounds
  rw [← State.resetCore_reset]
  exact State.resetCore_inv (by rwa [State.reset_caps_toNat]) (by rwa [State.reset_caps_toNat])

end Sys2Proof.Claims
end

section
/-! PROOFS. Frames and independence of the commands (10_state.md R33, R36; 70_reset_and_hazards.md R353). -/

namespace Sys2Proof.Machine

/-! ## Operands that no command reads -/

/-- The state with another STATUS. -/
abbrev State.withStatus (s : State) (st : Status) : State := { s with status := st }

/-- The state with another content of Y and Y_LEN. -/
abbrev State.withY (s : State) (y : Word) (n : BitVec 8) : State := { s with y := y, yLen := n }

theorem resultOf_withStatus (i : Instr) (s : State) (st : Status) : resultOf i (s.withStatus st) = resultOf i s := by
  cases i <;> rfl

theorem outputOf_withStatus (i : Instr) (s : State) (st : Status) : outputOf i (s.withStatus st) = outputOf i s := by
  cases i <;> rfl

theorem resultOf_withY (i : Instr) (s : State) (y : Word) (n : BitVec 8) : resultOf i (s.withY y n) = resultOf i s := by
  cases i <;> rfl

theorem outputOf_withY (i : Instr) (s : State) (y : Word) (n : BitVec 8) : outputOf i (s.withY y n) = outputOf i s := by
  cases i <;> rfl

/-- What a command leaves when STATUS was `st` before it, from what it leaves otherwise: ERR_STICKY stays set, or gets set by an error
(60_exceptions.md R303, R304). -/
abbrev State.afterStatus (t : State) (st : Status) : State :=
  { t with status := { t.status with errSticky := st.errSticky || t.status.err } }

theorem State.failed_withStatus (s : State) (st : Status) (e : CmdError) :
    (s.withStatus st).failed e = (s.failed e).afterStatus st := by
  simp only [State.failed, State.afterStatus, Status.recordError, Bool.or_true]
  rfl

theorem State.succeeded_withStatus (s : State) (st : Status) : (s.withStatus st).succeeded = s.succeeded.afterStatus st := by
  simp only [State.succeeded, State.afterStatus, Status.recordSuccess, Bool.or_false]
  rfl

/-- The kinds of `command_kind` exclude each other. -/
theorem writesY_eq_false_of_writesMout {i : Instr} (h : writesMout i = true) : writesY i = false := by
  cases i with
  | encm | decm | conv => rfl
  | _ => exact nomatch h

theorem execDerive_legal {s : State} (h : s.keyLen.toNat = 64) : execDerive s = .next (s.setSchedule s.key).succeeded := by
  rw [execDerive, keyOperand_legal s h]
  rfl

theorem execDerive_illegal {s : State} (h : s.keyLen.toNat ≠ 64) : execDerive s = .next (s.failed .invalidKeyLength) := by
  rw [execDerive, keyOperand_illegal s h]
  rfl

end Sys2Proof.Machine

namespace Sys2Proof.Claims
open Sys2Proof.Machine

/-- Settles O38, by the cases of what a command can do; an output that fits MOUT is counted by MSG_OUT_LEN in full. -/
theorem commandsWriteOnlyTheirResults : Obligations.CommandsWriteOnlyTheirResults := by
  intro i s t h
  rcases exec_next h with ⟨e, rfl⟩ | ⟨rfl, -, rfl⟩ | ⟨hy, q, -, -, rfl⟩ | ⟨hm, o, ho, rfl⟩
  · exact ⟨fun _ => rfl, fun _ => rfl, fun _ => ⟨rfl, fun _ _ _ => rfl⟩⟩
  · exact ⟨fun hy => (nomatch hy), fun _ => rfl, fun hm => nomatch hm⟩
  · refine ⟨fun _ => rfl, ?_, fun hm => ?_⟩
    · rintro rfl
      exact nomatch hy
    · rw [writesY_eq_false_of_writesMout hm] at hy
      exact nomatch hy
  · refine ⟨fun hy => ?_, ?_, fun _ => ⟨rfl, fun hcaps j hj => ?_⟩⟩
    · rw [writesY_eq_false_of_writesMout hm] at hy
      exact nomatch hy
    · rintro rfl
      exact nomatch hm
    · have hfits := outputOf_length_le ho
      have hlen : (BitVec.ofNat 32 o.length).toNat = o.length := by
        rw [BitVec.toNat_ofNat]
        omega
      have hbeyond : ¬(0 ≤ j ∧ j < 0 + o.length) := by
        rw [State.succeeded_msgOutLen, State.setMout_msgOutLen, hlen] at hj
        omega
      exact (Memory.read_writeFrom s.mout 0 j o).trans (if_neg hbeyond)

/-- Settles O43, by the kinds of commands: their results and outputs are those of the state with the old STATUS. -/
theorem noCommandReadsStatus : Obligations.NoCommandReadsStatus := by
  intro i s t st h
  change exec i (s.withStatus st) = .next (t.afterStatus st)
  rcases command_kind i with rfl | hy | hm
  · rcases execDerive_next h with ⟨hk, rfl⟩ | ⟨hk, rfl⟩
    · rw [← State.failed_withStatus]
      exact execDerive_illegal hk
    · rw [← State.succeeded_withStatus]
      exact execDerive_legal hk
  · rw [exec_writesY hy] at h ⊢
    rw [resultOf_withStatus]
    rcases finishY_next h with ⟨e, hr, rfl⟩ | ⟨q, hr, rfl⟩
    · rw [hr, finishY_error, State.failed_withStatus]
    · rw [hr, finishY_ok, ← State.succeeded_withStatus]
      rfl
  · rw [exec_writesMout hm] at h ⊢
    rw [outputOf_withStatus]
    rcases finishMessage_next h with ⟨e, hr, rfl⟩ | ⟨o, hr, rfl⟩
    · rw [hr, finishMessage_error, State.failed_withStatus]
    · rw [hr, finishMessage_ok, ← State.succeeded_withStatus]
      rfl

/-- Settles O44, by the kinds of commands: their results and outputs are those of the state with the old Y, and a success that writes Y
overwrites both registers. -/
theorem noCommandReadsY : Obligations.NoCommandReadsY := by
  intro i s t y n h
  change if writesY i = true ∧ t.status.err = false then exec i (s.withY y n) = .next t
    else exec i (s.withY y n) = .next (t.withY y n)
  rcases command_kind i with rfl | hy | hm
  · rw [if_neg (fun hc => nomatch hc.1)]
    rcases execDerive_next h with ⟨hk, rfl⟩ | ⟨hk, rfl⟩
    · exact execDerive_illegal hk
    · exact execDerive_legal hk
  · rw [exec_writesY hy] at h ⊢
    rw [resultOf_withY]
    rcases finishY_next h with ⟨e, hr, rfl⟩ | ⟨q, hr, rfl⟩
    · rw [if_neg (fun hc => nomatch hc.2), hr]
      rfl
    · rw [if_pos ⟨hy, rfl⟩, hr]
      rfl
  · have hkind : ¬(writesY i = true ∧ t.status.err = false) := by simp [writesY_eq_false_of_writesMout hm]
    rw [if_neg hkind]
    rw [exec_writesMout hm] at h ⊢
    rw [outputOf_withY]
    rcases finishMessage_next h with ⟨e, hr, rfl⟩ | ⟨o, hr, rfl⟩
    · rw [hr]
      rfl
    · rw [hr]
      rfl

end Sys2Proof.Claims
end

section
/-! PROOFS. The register map (10_state.md R20, R24 to R34): indices, the STATUS word, and what a write stores and leaves unchanged. -/

namespace Sys2Proof.Machine

/-! ## The register map -/

theorem Reg.ofIndex_index (r : Reg) : Reg.ofIndex r.index = some r := by
  cases r with
  | sk k => revert k; decide
  | ptab j => revert j; decide
  | _ => rfl

/-- Beyond the PTAB entries no index holds a register (10_state.md R34; notes/assumptions/16.md). -/
theorem Reg.ofIndex_beyond {i : Nat} (h : 0x60 ≤ i) : Reg.ofIndex i = none := by
  unfold Reg.ofIndex
  repeat rw [if_neg (by omega)]
  rw [dif_neg (by omega), dif_neg (by omega)]

/-- Up to the last PTAB entry every index but the reserved one holds the register that has this index. -/
theorem Reg.index_ofIndex_below : ∀ i < 0x60, (Reg.ofIndex i).map Reg.index = if i = 0x0F then none else some i := by
  decide

theorem Reg.index_of_ofIndex {i : Nat} {r : Reg} (h : Reg.ofIndex i = some r) : r.index = i := by
  rcases Nat.lt_or_ge i 0x60 with hi | hi
  · have hmap := Reg.index_ofIndex_below i hi
    rw [h, Option.map_some] at hmap
    split at hmap
    · exact nomatch hmap
    · exact Option.some.inj hmap
  · rw [Reg.ofIndex_beyond hi] at h
    exact nomatch h

theorem Reg.ofIndex_eq_none_iff (i : Nat) : Reg.ofIndex i = none ↔ i = 0x0F ∨ 0x60 ≤ i := by
  rcases Nat.lt_or_ge i 0x60 with hi | hi
  · have hmap := Reg.index_ofIndex_below i hi
    rw [← Option.map_eq_none_iff (f := Reg.index), hmap]
    simp [Nat.not_le.mpr hi]
  · simp [Reg.ofIndex_beyond hi, hi]

theorem perform_rd_index {s : State} {r : Reg} {v : Word} (h : s.readReg r = some v) :
    perform (.rd .reg r.index) s = .next (s.setRead v) :=
  readRegister_of (Reg.ofIndex_index r) h

theorem perform_wr_index {s t : State} {r : Reg} {v : Word} (hc : r ≠ .cmd) (h : s.writeReg r v = some t) :
    perform (.wr .reg r.index v) s = .next t :=
  writeRegister_of (Reg.ofIndex_index r) hc h

/-! ## What a write of a data register leaves unchanged -/

theorem readReg_writeSk_other (s : State) {r : Fin 16} {r' : Reg} (v : Word) (hne : r' ≠ .sk r) (hskw : r' ≠ .skw) :
    (s.writeSk r v).readReg r' = s.readReg r' := by
  cases r' with
  | skw => exact absurd rfl hskw
  | sk k =>
    have hrk : r ≠ k := fun h => hne (h ▸ rfl)
    simp only [State.readReg, getElem_sk_writeSk, if_neg hrk]
  | _ => rfl

theorem readReg_writePtab_other (s : State) {j : Fin 64} {r' : Reg} (v : Word) (hne : r' ≠ .ptab j) :
    (s.writePtab j v).readReg r' = s.readReg r' := by
  cases r' with
  | ptab k =>
    have hjk : j.val ≠ k.val := fun h => hne (Fin.ext h ▸ rfl)
    simp only [State.readReg, State.writePtab_ptab, Memory.read_write_other _ _ hjk]
  | _ => rfl

theorem readReg_writeReg_other {s t : State} {r r' : Reg} {v : Word} (h : s.writeReg r v = some t) (hne : r' ≠ r)
    (hskw : r' ≠ .skw) : t.readReg r' = s.readReg r' := by
  cases r with
  | sk k => cases h; exact readReg_writeSk_other s v hne hskw
  | ptab j => cases h; exact readReg_writePtab_other s v hne
  | cmd | status | y | yLen | skw | msgOutLen | caps => exact nomatch h
  | _ =>
    cases h
    cases r' <;> simp [State.readReg] at hne ⊢

theorem getLsbD_skw_writeReg {s t : State} {r : Reg} {v : Word} (h : s.writeReg r v = some t) (k : Fin 16) :
    t.skw.getLsbD k = (s.skw.getLsbD k || decide (r = .sk k)) := by
  cases r with
  | sk j =>
    cases h
    simp only [getLsbD_skw_writeSk, Reg.sk.injEq]
  | cmd | status | y | yLen | skw | msgOutLen | caps => exact nomatch h
  | _ => cases h; simp

theorem written_ptab_writeReg {s t : State} {r : Reg} {v : Word} (h : s.writeReg r v = some t) (k : Fin 64) :
    t.ptab.written k = (s.ptab.written k || decide (r = .ptab k)) := by
  cases r with
  | ptab j =>
    cases h
    simp only [State.writePtab_ptab, Memory.written_write, Reg.ptab.injEq, Fin.ext_iff, Bool.or_comm]
  | cmd | status | y | yLen | skw | msgOutLen | caps => exact nomatch h
  | _ => cases h; simp

theorem writeReg_changesOnlyReg {s t : State} {r : Reg} {v : Word} (h : s.writeReg r v = some t) : Claims.ChangesOnlyReg s t r := by
  refine ⟨fun r' => readReg_writeReg_other h, getLsbD_skw_writeReg h, written_ptab_writeReg h, ?_⟩
  rcases writeReg_next h with ⟨k, -, rfl⟩ | ⟨j, -, rfl⟩ | ht
  · exact ⟨rfl, rfl, rfl, rfl⟩
  · exact ⟨rfl, rfl, rfl, rfl⟩
  · rw [ht]
    exact ⟨rfl, rfl, rfl, rfl⟩

/-- A register with a writable width takes a write, and then reads as the low bits written (10_state.md R26). -/
theorem writeReg_of_writableWidth {r : Reg} {w : Nat} (hw : Claims.writableWidth r = some w) (s : State) (v : Word) :
    ∃ t, s.writeReg r v = some t ∧ t.readReg r = some ((v.setWidth w).setWidth 64) := by
  cases r with
  | sk k =>
    cases hw
    exact ⟨_, rfl, by simp only [State.readReg, getElem_sk_writeSk, if_pos]⟩
  | ptab j =>
    cases hw
    exact ⟨_, rfl, by simp only [State.readReg, State.writePtab_ptab, Memory.read_write_same, Option.map_some]⟩
  | cmd | status | y | yLen | skw | msgOutLen | caps => exact nomatch hw
  | key | a | b =>
    cases hw
    exact ⟨_, rfl, by simp only [State.readReg, BitVec.setWidth_eq]⟩
  | _ =>
    cases hw
    exact ⟨_, rfl, rfl⟩

/-- The STATUS word bit by bit (10_state.md R24): the reserved bits read as 0. -/
theorem Status.getLsbD_toWord (st : Status) (i : Nat) : st.toWord.getLsbD i =
    if i < 1 then st.done else if i < 2 then st.err else if i < 3 then st.errSticky else if i < 8 then false
    else if i < 16 then st.errCode.getLsbD (i - 8) else st.lastOp.getLsbD (i - 16) := by
  have hop : (if i - 16 < 6 then st.lastOp.getLsbD (i - 16) else false) = st.lastOp.getLsbD (i - 16) :=
    ite_eq_left_iff.mpr fun h => (BitVec.getLsbD_of_ge _ _ (Nat.not_lt.mp h)).symm
  unfold toWord
  simp only [BitVec.getLsbD_append]
  simp only [BitVec.getLsbD_zero, BitVec.getLsbD_ofBool, Nat.sub_sub, Nat.reduceAdd, hop]
  split_ifs <;> grind

/-- A field of the STATUS word is bits of it, read through `getLsbD_toWord`. -/
theorem Status.extract_toWord {st : Status} {start len : Nat} {x : BitVec len}
    (h : ∀ i < len, st.toWord.getLsbD (start + i) = x.getLsbD i) : st.toWord.extractLsb' start len = x := by
  apply BitVec.eq_of_getLsbD_eq
  intro i hi
  rw [BitVec.getLsbD_extractLsb', decide_eq_true hi, Bool.true_and, h i hi]

theorem Status.toWord_fields (st : Status) :
    st.toWord.getLsbD 0 = st.done ∧ st.toWord.getLsbD 1 = st.err ∧ st.toWord.getLsbD 2 = st.errSticky ∧
    st.toWord.extractLsb' 3 5 = 0 ∧ st.toWord.extractLsb' 8 8 = st.errCode ∧ st.toWord.extractLsb' 16 6 = st.lastOp ∧
    st.toWord.extractLsb' 22 42 = 0 := by
  refine ⟨getLsbD_toWord st 0, getLsbD_toWord st 1, getLsbD_toWord st 2, extract_toWord fun i hi => ?_,
    extract_toWord fun i hi => ?_, extract_toWord fun i hi => ?_, extract_toWord fun i hi => ?_⟩
  all_goals
    rw [getLsbD_toWord]
    grind

end Sys2Proof.Machine

namespace Sys2Proof.Claims
open Sys2Proof.Machine

theorem readsTheMap (s : State) : ReadsTheMap s :=
  ⟨perform_rd_index (r := .cmd) rfl, perform_rd_index (r := .status) rfl, perform_rd_index (r := .key) rfl,
    perform_rd_index (r := .keyLen) rfl, perform_rd_index (r := .a) rfl, perform_rd_index (r := .aLen) rfl,
    perform_rd_index (r := .b) rfl, perform_rd_index (r := .bLen) rfl, perform_rd_index (r := .y) rfl,
    perform_rd_index (r := .yLen) rfl, perform_rd_index (r := .skw) rfl, perform_rd_index (r := .ptabLen) rfl,
    perform_rd_index (r := .msgInLen) rfl, perform_rd_index (r := .msgOutLen) rfl, perform_rd_index (r := .caps) rfl,
    fun k => perform_rd_index (r := .sk k) rfl,
    fun j _ he => perform_rd_index (r := .ptab j) (congrArg (Option.map (BitVec.setWidth 64)) he)⟩

theorem writesTheMap (s : State) (v : Word) : WritesTheMap s v := by
  refine ⟨perform_wr_index (r := .key) nofun rfl, perform_wr_index (r := .keyLen) nofun rfl,
    perform_wr_index (r := .a) nofun rfl, perform_wr_index (r := .aLen) nofun rfl, perform_wr_index (r := .b) nofun rfl,
    perform_wr_index (r := .bLen) nofun rfl, perform_wr_index (r := .ptabLen) nofun rfl,
    perform_wr_index (r := .msgInLen) nofun rfl, fun k => perform_wr_index (r := .sk k) nofun rfl, fun j => ?_⟩
  refine ⟨_, perform_wr_index (r := .ptab j) nofun rfl, fun k => ?_⟩
  simp only [Memory.read_write, eq_comm]

/-- Settles O48, from the two directions of the index map and the read and write of each index. -/
theorem registerMapHasNoOverlap : Obligations.RegisterMapHasNoOverlap :=
  ⟨Reg.ofIndex_index, fun _ _ => Reg.index_of_ofIndex, Reg.ofIndex_eq_none_iff,
    fun s => ⟨readsTheMap s, writesTheMap s⟩⟩

/-- Settles O49: each field is a part of the concatenation that the STATUS word is. -/
theorem statusWordHasTheFieldsOfR24 : Obligations.StatusWordHasTheFieldsOfR24 := by
  intro s
  exact ⟨s.status.toWord, perform_rd_index (r := .status) rfl, s.status.toWord_fields⟩

/-- Settles O50, from what the write stores and what it leaves unchanged. -/
theorem registerWritesStoreTheLowBits : Obligations.RegisterWritesStoreTheLowBits := by
  intro s r w v hw
  obtain ⟨t, ht, hread⟩ := writeReg_of_writableWidth hw s v
  have hcmd : r ≠ .cmd := by
    rintro rfl
    exact nomatch hw
  exact ⟨t, perform_wr_index hcmd ht, perform_rd_index hread, writeReg_changesOnlyReg ht⟩

end Sys2Proof.Claims
end

section
/-! PROOFS. Buffer accesses, written bits, the reset input and the CMD write of a step (20_memory.md R62, R63; 10_state.md R40, R42;
60_exceptions.md R302). -/

namespace Sys2Proof.Machine

/-! ## Buffer elements -/

theorem perform_rd_min {s : State} {i : Nat} {u : CodeUnit} (hi : i < s.caps.toNat) (hu : s.min.read i = some u) :
    perform (.rd .min i) s = .next (s.setRead (u.setWidth 64)) := by
  simp only [perform, readMin, if_neg (Nat.not_le.mpr hi), hu]
  rfl

theorem perform_rd_mout {s : State} {i : Nat} {c : Byte} (hi : i < s.msgOutLen.toNat) (hc : s.mout.read i = some c) :
    perform (.rd .mout i) s = .next (s.setRead (c.setWidth 64)) := by
  simp only [perform, readMout, if_neg (Nat.not_le.mpr hi), hc]
  rfl

theorem perform_wr_min {s : State} {i : Nat} (hi : i < s.caps.toNat) (v : Word) :
    perform (.wr .min i v) s = .next (s.setMin i v) :=
  if_neg (Nat.not_le.mpr hi)

/-! ## Written bits -/

/-- Every bit of SKW, and every written bit of PTAB and MIN, that is set in `s` is set in `t` (10_state.md R28, R40). -/
structure WrittenBitsKept (s t : State) : Prop where
  skw : ∀ r : Fin 16, s.skw.getLsbD r = true → t.skw.getLsbD r = true
  ptab : ∀ j, s.ptab.written j = true → t.ptab.written j = true
  min : ∀ j, s.min.written j = true → t.min.written j = true

theorem WrittenBitsKept.of_eq {s t : State} (hskw : t.skw = s.skw) (hptab : t.ptab = s.ptab) (hmin : t.min = s.min) :
    WrittenBitsKept s t := by
  constructor
  · exact fun _ h => hskw ▸ h
  · exact fun _ h => hptab ▸ h
  · exact fun _ h => hmin ▸ h

theorem Memory.written_write_of_written {w : Nat} {m : Memory w} {j : Nat} (h : m.written j = true) (i : Nat) (v : BitVec w) :
    (Memory.write m i v).written j = true := by
  rw [Memory.written_write, h, Bool.or_true]

theorem writtenBitsKept_setMin (s : State) (i : Nat) (v : Word) : WrittenBitsKept s (s.setMin i v) where
  skw _ h := h
  ptab _ h := h
  min _ h := Memory.written_write_of_written h i _

theorem writtenBitsKept_exec {i : Instr} {s t : State} (h : exec i s = .next t) : WrittenBitsKept s t := by
  rcases exec_next h with ⟨e, rfl⟩ | ⟨-, -, rfl⟩ | ⟨-, q, -, -, rfl⟩ | ⟨-, o, -, rfl⟩
  · exact .of_eq rfl rfl rfl
  · exact ⟨fun r _ => getLsbD_skw_setSchedule s s.key r, fun _ h => h, fun _ h => h⟩
  · exact .of_eq rfl rfl rfl
  · exact .of_eq rfl rfl rfl

theorem writtenBitsKept_runCommand {w : Word} {s t : State} (h : runCommand w s = .next t) : WrittenBitsKept s t := by
  rcases runCommand_next h with ⟨e, rfl⟩ | ⟨i, -, hi, -, -⟩
  · exact .of_eq rfl rfl rfl
  · obtain ⟨hskw, hptab, hmin⟩ := writtenBitsKept_exec hi
    exact ⟨hskw, hptab, hmin⟩

theorem writtenBitsKept_writeReg {s t : State} {r : Reg} {v : Word} (h : s.writeReg r v = some t) : WrittenBitsKept s t := by
  rcases writeReg_next h with ⟨k, -, rfl⟩ | ⟨j, -, rfl⟩ | ht
  · refine ⟨fun r hr => ?_, fun _ h => h, fun _ h => h⟩
    rw [getLsbD_skw_writeSk, hr, Bool.true_or]
  · exact ⟨fun _ h => h, fun _ h => Memory.written_write_of_written h j _, fun _ h => h⟩
  · rw [ht]
    exact .of_eq rfl rfl rfl

theorem writtenBitsKept_perform {a : Access} {s t : State} (h : perform a s = .next t) (ha : a ≠ .reset) :
    WrittenBitsKept s t := by
  rcases perform_next h with ⟨hr, -⟩ | ⟨_, _, v, -, rfl⟩ | ⟨i, v, -, -, rfl⟩ | ⟨_, v, -, -, hc⟩ | ⟨_, v, r, -, -, -, hw⟩
  · exact absurd hr ha
  · exact .of_eq rfl rfl rfl
  · exact writtenBitsKept_setMin s i v
  · exact writtenBitsKept_runCommand hc
  · exact writtenBitsKept_writeReg hw

theorem runCommand_of_decode {w : Word} {i : Instr} (h : decode w = .ok i) (s : State) :
    runCommand w s = exec i (s.setCmd w) := by
  rw [runCommand, h]

theorem step_of_pending {s : State} {a : Access} {rest : List Access} (h : s.pending = a :: rest) :
    step s = perform a (s.setPending rest) := by
  rw [step, nextAccess, h]

end Sys2Proof.Machine

namespace Sys2Proof.Claims
open Sys2Proof.Machine

/-- Settles O51, from the reads of the two buffers and the laws of a buffer write. -/
theorem minHoldsWhatTheHostWrites : Obligations.MinHoldsWhatTheHostWrites := by
  refine ⟨fun s i u => perform_rd_min, fun s i c => perform_rd_mout, fun s i v hi => ?_⟩
  refine ⟨_, perform_wr_min hi v, ?_, fun j hj => Memory.read_write_other _ _ hj.symm, ?_⟩
  · simp [Memory.written_write]
  · exact perform_rd_min hi (Memory.read_write_same _ _ _)

/-- Settles O54, by the cases of a step; `WrittenBitsKept` is the statement's conclusion. -/
theorem writtenBitsLastUntilReset : Obligations.WrittenBitsLastUntilReset := by
  intro s t h hnext
  rcases step_next h with ⟨-, rfl⟩ | ⟨a, rest, hp, ha⟩
  · exact ⟨fun _ h => h, fun _ h => h, fun _ h => h⟩
  · have hreset : a ≠ .reset := by
      rintro rfl
      exact hnext ⟨rest, hp⟩
    obtain ⟨hskw, hptab, hmin⟩ := writtenBitsKept_perform ha hreset
    exact ⟨hskw, hptab, hmin⟩

/-- Settles O55: reset leaves every field of the core but CAPS at the value that `State.reset` gives it. -/
theorem resetInputSetsTheResetValues : Obligations.ResetInputSetsTheResetValues := by
  refine ⟨State.reset_caps_toNat, congrArg _ State.resetCore_reset, fun s => ⟨s.resetCore, rfl, ?_⟩⟩
  exact ⟨rfl, (by decide : Status.toWord ⟨false, false, false, 0, 0⟩ = 0), rfl, rfl, rfl, rfl, rfl, rfl, rfl, rfl,
    fun r => Vector.getElem_replicate _, rfl, rfl, fun _ => rfl, rfl, rfl, rfl, fun _ => rfl, rfl⟩

/-- Settles O46: index 0 is CMD, and the decoded command runs on the state that holds the word. -/
theorem stepRunsTheDecodedCommand : Obligations.StepRunsTheDecodedCommand := by
  intro s w rest i hp hd
  calc step s = perform (.wr .reg 0 w) (s.setPending rest) := step_of_pending hp
    _ = runCommand w (s.setPending rest) := rfl
    _ = exec i ((s.setPending rest).setCmd w) := runCommand_of_decode hd _

end Sys2Proof.Claims
end

section
/-! PROOFS. The refused accesses and the side effects of an access (20_memory.md R66, R70). -/

namespace Sys2Proof.Machine

/-! ## Which accesses are refused -/

theorem exec_total (i : Instr) (s : State) : ∃ t, exec i s = .next t := by
  rcases command_kind i with rfl | hy | hm
  · by_cases hk : s.keyLen.toNat = 64
    · exact ⟨_, execDerive_legal hk⟩
    · exact ⟨_, execDerive_illegal hk⟩
  · rw [exec_writesY hy]
    cases resultOf i s with
    | error e => exact ⟨_, finishY_error s e⟩
    | ok q => exact ⟨_, finishY_ok s q⟩
  · rw [exec_writesMout hm]
    cases outputOf i s with
    | error e => exact ⟨_, finishMessage_error s e⟩
    | ok o => exact ⟨_, finishMessage_ok s o⟩

theorem runCommand_total (w : Word) (s : State) : ∃ t, runCommand w s = .next t := by
  cases hd : decode w with
  | error e => exact ⟨(s.setCmd w).failed .illegalCommand, by rw [runCommand, hd]; rfl⟩
  | ok i =>
    rw [runCommand_of_decode hd]
    exact exec_total i _

/-- An element whose written bit is clear holds no value. -/
theorem Memory.read_eq_none_iff {w : Nat} (m : Memory w) (i : Nat) : m.read i = none ↔ m.written i = false := by
  rw [Memory.written, Option.isSome_eq_false_iff, Option.isNone_iff_eq_none]

/-- The reads that R66 lists at a register's index are those that return no value. -/
theorem refusedAccess_rd_index (s : State) (r : Reg) : Claims.RefusedAccess s (.rd .reg r.index) ↔ s.readReg r = none := by
  cases r with
  | sk k =>
    simp only [Claims.RefusedAccess, Reg.index, State.readReg, reduceCtorEq, iff_false]
    omega
  | ptab j =>
    simp only [Claims.RefusedAccess, Reg.index, State.readReg, Option.map_eq_none_iff, Memory.read_eq_none_iff,
      Nat.add_sub_cancel_left]
    constructor
    · rintro (h | h | ⟨-, -, h⟩)
      · omega
      · omega
      · exact h
    · exact fun h => .inr (.inr ⟨by omega, by omega, h⟩)
  | _ => simp [Claims.RefusedAccess, Reg.index, State.readReg]

/-- The writes that R66 lists at a register's index are those of the registers other than CMD that store nothing. -/
theorem refusedAccess_wr_index (s : State) (r : Reg) (v : Word) :
    Claims.RefusedAccess s (.wr .reg r.index v) ↔ r ≠ .cmd ∧ s.writeReg r v = none := by
  cases r with
  | sk k =>
    simp only [Claims.RefusedAccess, Reg.index, State.writeReg, reduceCtorEq, and_false, iff_false]
    omega
  | ptab j =>
    simp only [Claims.RefusedAccess, Reg.index, State.writeReg, reduceCtorEq, and_false, iff_false]
    omega
  | _ => simp [Claims.RefusedAccess, Reg.index, State.writeReg]

theorem perform_rd_index_refused {s : State} {r : Reg} (h : s.readReg r = none) :
    perform (.rd .reg r.index) s = .refused (.unwrittenPtab (.rd .reg r.index)) := by
  simp only [perform, readRegister, Reg.ofIndex_index, h]

theorem perform_wr_index_refused {s : State} {r : Reg} {v : Word} (hc : r ≠ .cmd) (h : s.writeReg r v = none) :
    perform (.wr .reg r.index v) s = .refused (.readOnlyRegister (.wr .reg r.index v)) := by
  cases r with
  | cmd => exact absurd rfl hc
  | _ => simp only [perform, writeRegister, Reg.ofIndex_index, h]

/-- R66 lists the access and the core refuses it, or R66 does not list it and the core takes it. -/
def ListedIffRefused (s : State) (a : Access) : Prop :=
  (Claims.RefusedAccess s a ∧ ∃ r, perform a s = .refused r) ∨ (¬Claims.RefusedAccess s a ∧ ∃ t, perform a s = .next t)

theorem listedIffRefused_rd_index (s : State) (r : Reg) : ListedIffRefused s (.rd .reg r.index) := by
  rw [ListedIffRefused, refusedAccess_rd_index]
  cases hv : s.readReg r with
  | none => exact .inl ⟨rfl, _, perform_rd_index_refused hv⟩
  | some v => exact .inr ⟨nofun, _, perform_rd_index hv⟩

theorem listedIffRefused_wr_index (s : State) (r : Reg) (v : Word) : ListedIffRefused s (.wr .reg r.index v) := by
  rw [ListedIffRefused, refusedAccess_wr_index]
  by_cases hc : r = .cmd
  · subst hc
    exact .inr ⟨fun h => h.1 rfl, runCommand_total v s⟩
  · cases ht : s.writeReg r v with
    | none => exact .inl ⟨⟨hc, rfl⟩, _, perform_wr_index_refused hc ht⟩
    | some t => exact .inr ⟨nofun, t, perform_wr_index hc ht⟩

theorem listedIffRefused_rd_reg (s : State) (i : Nat) : ListedIffRefused s (.rd .reg i) := by
  cases hr : Reg.ofIndex i with
  | none =>
    have hi := (Reg.ofIndex_eq_none_iff i).mp hr
    refine .inl ⟨hi.imp_right .inl, .reservedRegister (.rd .reg i), ?_⟩
    simp only [perform, readRegister, hr]
  | some r =>
    rw [← Reg.index_of_ofIndex hr]
    exact listedIffRefused_rd_index s r

theorem listedIffRefused_wr_reg (s : State) (i : Nat) (v : Word) : ListedIffRefused s (.wr .reg i v) := by
  cases hr : Reg.ofIndex i with
  | none =>
    have hi := (Reg.ofIndex_eq_none_iff i).mp hr
    refine .inl ⟨hi.imp_right .inl, .reservedRegister (.wr .reg i v), ?_⟩
    simp only [perform, writeRegister, hr]
  | some r =>
    rw [← Reg.index_of_ofIndex hr]
    exact listedIffRefused_wr_index s r v

theorem listedIffRefused_rd_min (s : State) (i : Nat) : ListedIffRefused s (.rd .min i) := by
  rcases Nat.lt_or_ge i s.caps.toNat with hi | hi
  · cases hu : s.min.read i with
    | none =>
      refine .inl ⟨.inr ((Memory.read_eq_none_iff s.min i).mp hu), .unwrittenMin (.rd .min i), ?_⟩
      simp only [perform, readMin, if_neg (Nat.not_le.mpr hi), hu]
    | some u =>
      refine .inr ⟨?_, _, perform_rd_min hi hu⟩
      rintro (h | h)
      · exact Nat.not_le.mpr hi h
      · rw [← Memory.read_eq_none_iff, hu] at h
        exact nomatch h
  · exact .inl ⟨.inl hi, _, if_pos hi⟩

theorem listedIffRefused_wr_min (s : State) (i : Nat) (v : Word) : ListedIffRefused s (.wr .min i v) := by
  rcases Nat.lt_or_ge i s.caps.toNat with hi | hi
  · exact .inr ⟨Nat.not_le.mpr hi, _, perform_wr_min hi v⟩
  · exact .inl ⟨hi, _, if_pos hi⟩

/-- `MessageOk` excludes the fault: every element that MSG_OUT_LEN counts holds a value. -/
theorem listedIffRefused_rd_mout {s : State} (hs : s.MessageOk) (i : Nat) : ListedIffRefused s (.rd .mout i) := by
  rcases Nat.lt_or_ge i s.msgOutLen.toNat with hi | hi
  · obtain ⟨c, hc⟩ := Option.isSome_iff_exists.mp (hs.mout_value i hi)
    exact .inr ⟨Nat.not_le.mpr hi, _, perform_rd_mout hi hc⟩
  · exact .inl ⟨hi, _, if_pos hi⟩

theorem listedIffRefused {s : State} (hs : s.MessageOk) (a : Access) : ListedIffRefused s a := by
  match a with
  | .rd .reg i => exact listedIffRefused_rd_reg s i
  | .rd .min i => exact listedIffRefused_rd_min s i
  | .rd .mout i => exact listedIffRefused_rd_mout hs i
  | .wr .reg i v => exact listedIffRefused_wr_reg s i v
  | .wr .min i v => exact listedIffRefused_wr_min s i v
  | .wr .mout i v => exact .inl ⟨trivial, _, rfl⟩
  | .reset => exact .inr ⟨id, _, rfl⟩

/-! ## Repeated accesses -/

/-- A read does not depend on what the host read last. -/
theorem perform_rd_setRead (sp : Space) (i : Nat) (s : State) (v : Word) :
    perform (.rd sp i) (s.setRead v) = perform (.rd sp i) s := by
  cases sp <;> rfl

theorem Memory.write_write_same {w : Nat} (m : Memory w) (i : Nat) (v : BitVec w) :
    Memory.write (Memory.write m i v) i v = Memory.write m i v := by
  induction m with
  | nil => simp [Memory.write]
  | cons c m ih =>
    obtain ⟨a, u⟩ := c
    rcases Nat.lt_trichotomy i a with hlt | rfl | hgt
    · simp [Memory.write, hlt]
    · simp [Memory.write]
    · simp [Memory.write, Nat.lt_asymm hgt, hgt.ne, ih]

theorem State.setMin_setMin_same (s : State) (i : Nat) (v : Word) : (s.setMin i v).setMin i v = s.setMin i v :=
  congrArg (fun m => { s with min := m }) (Memory.write_write_same s.min i _)

theorem State.writePtab_writePtab_same (s : State) (j : Fin 64) (v : Word) :
    (s.writePtab j v).writePtab j v = s.writePtab j v :=
  congrArg (fun m => { s with ptab := m }) (Memory.write_write_same s.ptab j _)

theorem State.writeSk_writeSk_same (s : State) (k : Fin 16) (v : Word) : (s.writeSk k v).writeSk k v = s.writeSk k v := by
  simp only [State.writeSk, Vector.set_set, BitVec.or_assoc, BitVec.or_self]

theorem writeReg_again {s t : State} {r : Reg} {v : Word} (h : s.writeReg r v = some t) : t.writeReg r v = some t := by
  cases r with
  | sk k => cases h; exact congrArg some (s.writeSk_writeSk_same k v)
  | ptab j => cases h; exact congrArg some (s.writePtab_writePtab_same j v)
  | cmd | status | y | yLen | skw | msgOutLen | caps => exact nomatch h
  | _ => cases h; rfl

/-- Everything a MIN write can do. -/
theorem perform_wr_min_next {i : Nat} {v : Word} {s t : State} (h : perform (.wr .min i v) s = .next t) :
    i < s.caps.toNat ∧ t = s.setMin i v := by
  simp only [perform, writeMin] at h
  split at h
  · exact nomatch h
  · next hi =>
    cases h
    exact ⟨Nat.not_le.mp hi, rfl⟩

theorem setMin_changesOnlyMin (s : State) (i : Nat) (v : Word) : Claims.ChangesOnlyMin s (s.setMin i v) i := by
  refine ⟨rfl, fun j hj => Memory.read_write_other _ _ hj.symm, fun j => ?_⟩
  simp only [State.setMin_min, Memory.written_write, Bool.or_comm, eq_comm]

end Sys2Proof.Machine

namespace Sys2Proof.Claims
open Sys2Proof.Machine

/-- Settles O52: each access is listed and refused, or not listed and taken. -/
theorem refusedAccessesAreExactlyTheListed : Obligations.RefusedAccessesAreExactlyTheListed := by
  intro s a hs _
  rcases listedIffRefused hs a with ⟨hlisted, href⟩ | ⟨hother, hnext⟩
  · exact ⟨fun _ => href, fun h => absurd hlisted h⟩
  · exact ⟨fun h => absurd h hother, fun _ => hnext⟩

/-- Settles O53, by the cases of a host access: a write that is not a CMD write stores in MIN or in one register. -/
theorem onlyCmdWritesHaveSideEffects : Obligations.OnlyCmdWritesHaveSideEffects := by
  constructor
  · intro s t sp i h
    obtain ⟨v, rfl⟩ := perform_rd_next h
    exact ⟨rfl, (perform_rd_setRead sp i s v).trans h⟩
  · intro s t sp i v hcmd h
    cases sp with
    | mout => exact nomatch h
    | min =>
      obtain ⟨hi, rfl⟩ := perform_wr_min_next h
      have hagain := perform_wr_min (s := s.setMin i v) hi v
      rw [State.setMin_setMin_same] at hagain
      exact ⟨hagain, fun _ => setMin_changesOnlyMin s i v, nofun⟩
    | reg =>
      rcases writeRegister_next h with ⟨hr, -⟩ | ⟨r, hr, hc, hw⟩
      · exact absurd ⟨rfl, (Reg.index_of_ofIndex hr).symm⟩ hcmd
      · exact ⟨writeRegister_of hr hc (writeReg_again hw), nofun, fun _ => ⟨r, hr, writeReg_changesOnlyReg hw⟩⟩

end Sys2Proof.Claims
end

section
/-! PROOFS. Decoding and encoding (30_encoding.md R91 to R98, R101): the rows of the opcode table exclude each other, each row holds
exactly the words of its commands, and the words of R98 are the rest. -/

namespace Sys2Proof

/-! ## The rows exclude each other -/

/-- Rows that share a word agree on the bits that both fix. -/
theorem OpcodeRow.pattern_and_mask_eq {r r' : OpcodeRow} {c : BitVec 32} (h : r.holds c = true) (h' : r'.holds c = true) :
    r.pattern &&& r'.mask = r'.pattern &&& r.mask := by
  rw [← eq_of_beq h, ← eq_of_beq h', BitVec.and_assoc, BitVec.and_assoc, BitVec.and_comm r.mask]

theorem opcodeTable_patterns_differ :
    opcodeTable.Pairwise (fun r r' => r.pattern &&& r'.mask ≠ r'.pattern &&& r.mask) := by
  decide

theorem not_holds_of_index_lt {j k : Nat} (hk : k < opcodeTable.length) (hjk : j < k) {c : BitVec 32}
    (hholds : opcodeTable[j].holds c = true) : ¬opcodeTable[k].holds c = true := fun hholds' =>
  List.pairwise_iff_getElem.mp opcodeTable_patterns_differ j k (by omega) hk hjk (OpcodeRow.pattern_and_mask_eq hholds hholds')

theorem row_index_unique {c : BitVec 32} {j k : Nat} (hj : j < opcodeTable.length) (hk : k < opcodeTable.length)
    (hholdsj : opcodeTable[j].holds c = true) (hholdsk : opcodeTable[k].holds c = true) : j = k := by
  rcases Nat.lt_trichotomy j k with hlt | heq | hgt
  · exact absurd hholdsk (not_holds_of_index_lt hk hlt hholdsj)
  · exact heq
  · exact absurd hholdsj (not_holds_of_index_lt hj hgt hholdsk)

theorem row_unique {c : BitVec 32} {r r' : OpcodeRow} (hr : r ∈ opcodeTable) (hr' : r' ∈ opcodeTable)
    (hholds : r.holds c = true) (hholds' : r'.holds c = true) : r = r' := by
  obtain ⟨j, hj, rfl⟩ := List.getElem_of_mem hr
  obtain ⟨k, hk, rfl⟩ := List.getElem_of_mem hr'
  obtain rfl := row_index_unique hj hk hholds hholds'
  rfl

/-! ## What decode answers -/

theorem find?_row_eq_some_iff {c : BitVec 32} {r : OpcodeRow} :
    opcodeTable.find? (fun r => r.holds c) = some r ↔ r ∈ opcodeTable ∧ r.holds c = true := by
  constructor
  · exact fun h => ⟨List.mem_of_find?_eq_some h, List.find?_some (p := fun r : OpcodeRow => r.holds c) h⟩
  · rintro ⟨hr, hholds⟩
    obtain ⟨r', hr'⟩ := Option.isSome_iff_exists.mp (List.find?_isSome (p := fun r : OpcodeRow => r.holds c).mpr ⟨r, hr, hholds⟩)
    rw [hr', row_unique (List.mem_of_find?_eq_some hr') hr (List.find?_some (p := fun r : OpcodeRow => r.holds c) hr') hholds]

/-- The inversion of decode (R92). -/
theorem decode_eq_ok_iff {w : Word} {i : Instr} :
    decode w = .ok i ↔
      w.extractLsb' 32 32 = 0#32 ∧ ∃ r ∈ opcodeTable, r.holds (w.setWidth 32) = true ∧ r.build (w.setWidth 32) = i := by
  unfold decode
  split
  · next hhigh => exact ⟨nofun, fun h => absurd h.1 hhigh⟩
  · next hhigh =>
    rw [ne_eq, not_not] at hhigh
    split
    · next hnone =>
      rw [List.find?_eq_none] at hnone
      exact ⟨nofun, fun ⟨_, r, hr, hholds, _⟩ => absurd hholds (hnone r hr)⟩
    · next r hsome =>
      obtain ⟨hr, hholds⟩ := find?_row_eq_some_iff.mp hsome
      constructor
      · rintro ⟨⟩
        exact ⟨hhigh, r, hr, hholds, rfl⟩
      · rintro ⟨-, r', hr', hholds', rfl⟩
        rw [row_unique hr hr' hholds hholds']

/-! ## Fields of a word -/

/-- The bits of the field of `len` bits at `start`. -/
def fieldMask (start len : Nat) : BitVec 32 := (BitVec.allOnes len).setWidth 32 <<< start

/-- A word with `x` in the field at `start`, and 0 elsewhere. -/
def putField {len : Nat} (start : Nat) (x : BitVec len) : BitVec 32 := x.setWidth 32 <<< start

theorem getLsbD_fieldMask {start len i : Nat} (hi : i < 32) :
    (fieldMask start len).getLsbD i = decide (start ≤ i ∧ i < start + len) := by
  simp only [fieldMask, BitVec.getLsbD_shiftLeft, BitVec.getLsbD_setWidth, BitVec.getLsbD_allOnes]
  grind

theorem getLsbD_putField {start len i : Nat} (x : BitVec len) (hi : i < 32) :
    (putField start x).getLsbD i = (decide (start ≤ i) && x.getLsbD (i - start)) := by
  simp only [putField, BitVec.getLsbD_shiftLeft, BitVec.getLsbD_setWidth]
  grind

theorem and_not_fieldMask_or_putField (start len : Nat) (c : BitVec 32) :
    c &&& ~~~fieldMask start len ||| putField start (c.extractLsb' start len) = c := by
  apply BitVec.eq_of_getLsbD_eq
  intro i hi
  simp only [BitVec.getLsbD_or, BitVec.getLsbD_and, BitVec.getLsbD_not, getLsbD_fieldMask hi, getLsbD_putField _ hi,
    BitVec.getLsbD_extractLsb']
  by_cases hfield : start ≤ i ∧ i < start + len
  · have hlt : i - start < len := by omega
    simp [hfield, hlt]
  · have hnot : ¬(start ≤ i ∧ i - start < len) := by omega
    grind

theorem putField_and_fieldMask {start len : Nat} (x : BitVec len) : putField start x &&& ~~~fieldMask start len = 0#32 := by
  apply BitVec.eq_of_getLsbD_eq
  intro i hi
  simp only [BitVec.getLsbD_and, BitVec.getLsbD_not, getLsbD_fieldMask hi, getLsbD_putField _ hi, BitVec.getLsbD_zero]
  grind

theorem extractLsb'_putField {start len : Nat} (x : BitVec len) (h : start + len ≤ 32) :
    (putField start x).extractLsb' start len = x := by
  apply BitVec.eq_of_getLsbD_eq
  intro i hi
  rw [BitVec.getLsbD_extractLsb', getLsbD_putField x (by omega)]
  simp [hi]

/-! ## Each row holds the words of its commands -/

/-- Every word of the row is the word of the well-formed command the row builds from it. -/
def OpcodeRow.Exact (r : OpcodeRow) : Prop := ∀ c, r.holds c = true → (r.build c).WellFormed ∧ encodeLow (r.build c) = c

/-- The command's word belongs to the row, and the row builds the command from it. -/
def OpcodeRow.Covers (r : OpcodeRow) (i : Instr) : Prop := r.holds (encodeLow i) = true ∧ r.build (encodeLow i) = i

theorem OpcodeRow.Exact.of_fixed (i : Instr) (hi : i.WellFormed) :
    OpcodeRow.Exact ⟨encodeLow i, 0xFFFFFFFF#32, fun _ => i⟩ := by
  intro c h
  have hc : c &&& BitVec.allOnes 32 = encodeLow i := eq_of_beq h
  rw [BitVec.and_allOnes] at hc
  exact ⟨hi, hc.symm⟩

/-! A row with operands leaves one field free and builds its command from the field. -/

section FieldRow

variable {start len : Nat} {p m : BitVec 32} {build : BitVec 32 → Instr} {f : BitVec len → Instr}

theorem OpcodeRow.Exact.of_field (hm : m = ~~~fieldMask start len) (hbuild : ∀ c, build c = f (c.extractLsb' start len))
    (hword : ∀ x, (f x).WellFormed ∧ encodeLow (f x) = p ||| putField start x) : OpcodeRow.Exact ⟨p, m, build⟩ := by
  intro c h
  have hc : c &&& m = p := eq_of_beq h
  obtain ⟨hwf, henc⟩ := hword (c.extractLsb' start len)
  change (build c).WellFormed ∧ encodeLow (build c) = c
  rw [hbuild, henc, ← hc, hm, and_not_fieldMask_or_putField]
  exact ⟨hwf, rfl⟩

theorem OpcodeRow.Covers.of_field (hm : m = ~~~fieldMask start len) (hbuild : ∀ c, build c = f (c.extractLsb' start len))
    (hword : ∀ x, (f x).WellFormed ∧ encodeLow (f x) = p ||| putField start x) (hfit : start + len ≤ 32)
    (hmask : p &&& m = p) (hzero : p.extractLsb' start len = 0#len) (x : BitVec len) : OpcodeRow.Covers ⟨p, m, build⟩ (f x) := by
  constructor
  · change (encodeLow (f x) &&& m == p) = true
    rw [(hword x).2, BitVec.and_or_distrib_right, hmask, hm, putField_and_fieldMask, BitVec.or_zero, beq_self_eq_true]
  · change build (encodeLow (f x)) = f x
    rw [hbuild, (hword x).2, BitVec.extractLsb'_or, hzero, extractLsb'_putField x hfit, BitVec.zero_or]

end FieldRow

/-- A message command from its two encoding bits, IENC first (R93). -/
def messageOfField (f : Enc → Enc → Instr) (x : BitVec 2) : Instr := f (Enc.ofBit (x.getLsbD 0)) (Enc.ofBit (x.getLsbD 1))

theorem messageOfField_extract (f : Enc → Enc → Instr) (c : BitVec 32) :
    f (fieldIenc c) (fieldOenc c) = messageOfField f (c.extractLsb' 8 2) := by
  simp [messageOfField, fieldIenc, fieldOenc]

theorem OpcodeRow.Exact.of_message {p : BitVec 32} {f : Enc → Enc → Instr}
    (h : ∀ x, (messageOfField f x).WellFormed ∧ encodeLow (messageOfField f x) = p ||| putField 8 x) :
    OpcodeRow.Exact ⟨p, 0xFFFFFCFF#32, fun c => f (fieldIenc c) (fieldOenc c)⟩ :=
  .of_field (by decide) (messageOfField_extract f) h

theorem or_ofNat_eq_or_putField {len : Nat} (p : BitVec 32) (x : BitVec len) :
    p ||| (BitVec.ofNat 32 x.toNat <<< 16) = p ||| putField 16 x := by
  rw [putField, BitVec.ofNat_toNat]

theorem rotl_word (x : BitVec 6) : (Instr.rotl x.toNat).WellFormed ∧ encodeLow (.rotl x.toNat) = 0x00000008#32 ||| putField 16 x :=
  ⟨decide_eq_true x.isLt, or_ofNat_eq_or_putField _ x⟩

theorem sbox_word (x : BitVec 3) : (Instr.sbox x.toNat).WellFormed ∧ encodeLow (.sbox x.toNat) = 0x0000000B#32 ||| putField 16 x :=
  ⟨decide_eq_true x.isLt, or_ofNat_eq_or_putField _ x⟩

theorem opcodeTable_exact : ∀ r ∈ opcodeTable, r.Exact := by
  simp only [opcodeTable, cipherRows, permRows, utilityRows, List.cons_append, List.nil_append, List.forall_mem_cons]
  exact ⟨.of_fixed .derive rfl, .of_fixed .encb rfl, .of_fixed .decb rfl, .of_message (by decide), .of_message (by decide),
    .of_fixed .feis rfl, .of_fixed .perm rfl, .of_fixed .permIp rfl, .of_fixed .permFp rfl, .of_fixed .permE rfl,
    .of_fixed .permP rfl, .of_fixed .permPc1 rfl, .of_fixed .permPc2 rfl, .of_field (by decide) (fun _ => rfl) rotl_word,
    .of_fixed .xor rfl, .of_fixed .cat rfl, .of_field (by decide) (fun _ => rfl) sbox_word, .of_message (by decide), nofun⟩

/-- The place of a command's row in the table (R97). -/
def Instr.rowIndex : Instr → Fin 18
  | .derive => 0
  | .encb => 1
  | .decb => 2
  | .encm _ _ => 3
  | .decm _ _ => 4
  | .feis => 5
  | .perm => 6
  | .permIp => 7
  | .permFp => 8
  | .permE => 9
  | .permP => 10
  | .permPc1 => 11
  | .permPc2 => 12
  | .rotl _ => 13
  | .xor => 14
  | .cat => 15
  | .sbox _ => 16
  | .conv _ _ => 17

/-- The row of a command. -/
abbrev Instr.row (i : Instr) : OpcodeRow := opcodeTable[i.rowIndex.val]'i.rowIndex.isLt

theorem Instr.row_mem (i : Instr) : i.row ∈ opcodeTable := List.getElem_mem _

theorem Instr.row_covers {i : Instr} (h : i.WellFormed) : i.row.Covers i := by
  cases i with
  | rotl n =>
    obtain ⟨x, rfl⟩ : ∃ x : BitVec 6, x.toNat = n := ⟨BitVec.ofNat 6 n, Nat.mod_eq_of_lt (of_decide_eq_true h)⟩
    exact .of_field (by decide) (fun _ => rfl) rotl_word (by decide) (by decide) (by decide) x
  | sbox g =>
    obtain ⟨x, rfl⟩ : ∃ x : BitVec 3, x.toNat = g := ⟨BitVec.ofNat 3 g, Nat.mod_eq_of_lt (of_decide_eq_true h)⟩
    exact .of_field (by decide) (fun _ => rfl) sbox_word (by decide) (by decide) (by decide) x
  | encm ienc oenc | decm ienc oenc | conv ienc oenc => cases ienc <;> cases oenc <;> exact ⟨rfl, rfl⟩
  | _ => exact ⟨rfl, rfl⟩

/-! ## The two halves of a word -/

theorem setWidth_encode (i : Instr) : (encode i).setWidth 32 = encodeLow i := BitVec.setWidth_setWidth_of_le _ (by decide)

theorem zero_append_low (c : BitVec 32) : 0#32 ++ c = c.setWidth 64 := (BitVec.setWidth_eq_append (by decide)).symm

theorem encode_high (i : Instr) : (encode i).extractLsb' 32 32 = 0#32 := by
  rw [encode, ← zero_append_low, BitVec.extractLsb'_append_eq_left]

theorem high_append_low (w : Word) : w.extractLsb' 32 32 ++ w.setWidth 32 = w := by
  simp only [BitVec.setWidth_eq_extractLsb' (show 32 ≤ 64 by decide), BitVec.extractLsb'_append_extractLsb'_eq_extractLsb',
    BitVec.extractLsb'_eq_self]

end Sys2Proof

namespace Sys2Proof.Claims
open Sys2Proof.Machine

/-- Settles O1: a command's word belongs to the command's row, and no other row holds it. -/
theorem decodeOfEncode : Obligations.DecodeOfEncode := by
  intro i hi
  obtain ⟨hholds, hbuild⟩ := Instr.row_covers hi
  rw [decode_eq_ok_iff, setWidth_encode]
  exact ⟨encode_high i, i.row, i.row_mem, hholds, hbuild⟩

/-- Settles O2: the row that a word matches holds the words of its own commands only. -/
theorem encodeOfDecode : Obligations.EncodeOfDecode := by
  intro w i h
  obtain ⟨hhigh, r, hr, hholds, rfl⟩ := decode_eq_ok_iff.mp h
  obtain ⟨hwf, henc⟩ := opcodeTable_exact r hr _ hholds
  refine ⟨hwf, ?_⟩
  rw [encode, henc, ← zero_append_low, ← hhigh, high_append_low]

/-- Settles O3: of two rows at different places, the patterns differ in a bit that both rows fix. -/
theorem noTwoRowsMatchOneWord : Obligations.NoTwoRowsMatchOneWord := fun _ _ _ => row_index_unique

/-- Settles O5: each word is that of the command it decodes to. -/
theorem wordsOfTheOpcodeTable : Obligations.WordsOfTheOpcodeTable :=
  ⟨decodeOfEncode .derive rfl, decodeOfEncode .encb rfl, decodeOfEncode .decb rfl, decodeOfEncode (.encm .raw .hex) rfl,
    decodeOfEncode (.decm .hex .raw) rfl, decodeOfEncode .feis rfl, decodeOfEncode .perm rfl, decodeOfEncode .permIp rfl,
    decodeOfEncode .permPc2 rfl, decodeOfEncode (.rotl 63) rfl, decodeOfEncode .xor rfl, decodeOfEncode .cat rfl,
    decodeOfEncode (.sbox 7) rfl, decodeOfEncode (.conv .hex .hex) rfl⟩

end Sys2Proof.Claims
end

section
/-! PROOFS. The words that select no command (30_encoding.md R98). -/

namespace Sys2Proof.Claims
open Sys2Proof.Machine

theorem exists_decode_iff {w : Word} :
    (∃ i, decode w = .ok i) ↔ w.extractLsb' 32 32 = 0#32 ∧ ∃ r ∈ opcodeTable, r.holds (w.setWidth 32) = true := by
  simp only [decode_eq_ok_iff]
  constructor
  · rintro ⟨_, hhigh, r, hr, hholds, -⟩
    exact ⟨hhigh, r, hr, hholds⟩
  · rintro ⟨hhigh, r, hr, hholds⟩
    exact ⟨_, hhigh, r, hr, hholds, rfl⟩

/-- A word's low half with the reserved bits 0, from its opcode, encoding, TSEL and number fields (R91). -/
def wordOfFields (op : Nat) (enc : BitVec 2) (tsel : BitVec 3) (n : BitVec 6) : BitVec 32 :=
  0#10 ++ n ++ 0#1 ++ tsel ++ 0#2 ++ enc ++ 0#2 ++ BitVec.ofNat 6 op

theorem low_eq_wordOfFields {w : Word} (h6 : w.extractLsb' 6 2 = 0) (h10 : w.extractLsb' 10 2 = 0) (h15 : w.extractLsb' 15 1 = 0)
    (h22 : w.extractLsb' 22 10 = 0) :
    w.setWidth 32 = wordOfFields (opField w) (w.extractLsb' 8 2) (w.extractLsb' 12 3) (w.extractLsb' 16 6) := by
  have hop : BitVec.ofNat 6 (opField w) = w.extractLsb' 0 6 := (BitVec.ofNat_toNat _ _).trans (BitVec.setWidth_eq _)
  have hsplit : w.setWidth 32 = w.extractLsb' 22 10 ++ w.extractLsb' 16 6 ++ w.extractLsb' 15 1 ++ w.extractLsb' 12 3 ++
      w.extractLsb' 10 2 ++ w.extractLsb' 8 2 ++ w.extractLsb' 6 2 ++ w.extractLsb' 0 6 := by
    simp only [BitVec.extractLsb'_append_extractLsb'_eq_extractLsb', BitVec.setWidth_eq_extractLsb' (show 32 ≤ 64 by decide)]
  rw [hsplit, h6, h10, h15, h22, ← hop]
  rfl

/-- The number field is G and the three bits above it (R96). -/
theorem number_eq_append (w : Word) : w.extractLsb' 16 6 = w.extractLsb' 19 3 ++ w.extractLsb' 16 3 := by
  simp only [BitVec.extractLsb'_append_extractLsb'_eq_extractLsb']

/-! ## The opcodes, by the field that their commands use -/

theorem row_of_fixed : ∀ op ∈ [1, 2, 3, 6, 9, 10], ∃ r ∈ opcodeTable, r.holds (wordOfFields op 0 0 0) = true := by decide

theorem row_of_message : ∀ op ∈ [4, 5, 12], ∀ enc, ∃ r ∈ opcodeTable, r.holds (wordOfFields op enc 0 0) = true := by decide

theorem row_of_perm : ∀ tsel, tsel ≠ 7 → ∃ r ∈ opcodeTable, r.holds (wordOfFields 7 0 tsel 0) = true := by decide

theorem row_of_rotl : ∀ n, ∃ r ∈ opcodeTable, r.holds (wordOfFields 8 0 0 n) = true := by decide

theorem row_of_sbox : ∀ g : BitVec 3, ∃ r ∈ opcodeTable, r.holds (wordOfFields 11 0 0 (0#3 ++ g)) = true := by decide

theorem opcode_cases {op : Nat} (hzero : op ≠ 0) (hlt : op < 13) :
    op ∈ [1, 2, 3, 6, 9, 10] ∨ op ∈ [4, 5, 12] ∨ op = 7 ∨ op = 8 ∨ op = 11 := by
  simp only [List.mem_cons, List.not_mem_nil, or_false]
  omega

theorem exists_row_of_not_illegalShape {w : Word} (h : ¬IllegalShape w) :
    ∃ r ∈ opcodeTable, r.holds (w.setWidth 32) = true := by
  simp only [IllegalShape, not_or, not_and, not_not] at h
  obtain ⟨hzero, hbeyond, ⟨h6, h10, h15, h22⟩, henc, htsel, hnum, hperm, hsbox, -⟩ := h
  have henc0 (h4 : opField w ≠ 4) (h5 : opField w ≠ 5) (h12 : opField w ≠ 12) : w.extractLsb' 8 2 = 0 :=
    by_contra fun hne => h12 (henc hne h4 h5)
  have htsel0 (h7 : opField w ≠ 7) : w.extractLsb' 12 3 = 0 := by_contra fun hne => h7 (htsel hne)
  have hnum0 (h8 : opField w ≠ 8) (h11 : opField w ≠ 11) : w.extractLsb' 16 6 = 0 :=
    by_contra fun hne => h11 (hnum hne h8)
  rw [low_eq_wordOfFields h6 h10 h15 h22]
  rcases opcode_cases hzero (Nat.not_le.mp hbeyond) with hop | hop | hop | hop | hop
  · have hne : ∀ op ∈ [1, 2, 3, 6, 9, 10], (op ≠ 4 ∧ op ≠ 5 ∧ op ≠ 12) ∧ op ≠ 7 ∧ op ≠ 8 ∧ op ≠ 11 := by decide
    obtain ⟨⟨h4, h5, h12⟩, h7, h8, h11⟩ := hne _ hop
    rw [henc0 h4 h5 h12, htsel0 h7, hnum0 h8 h11]
    exact row_of_fixed _ hop
  · have hne : ∀ op ∈ [4, 5, 12], op ≠ 7 ∧ op ≠ 8 ∧ op ≠ 11 := by decide
    obtain ⟨h7, h8, h11⟩ := hne _ hop
    rw [htsel0 h7, hnum0 h8 h11]
    exact row_of_message _ hop _
  · rw [henc0 (by omega) (by omega) (by omega), hnum0 (by omega) (by omega), hop]
    exact row_of_perm _ fun h7 => hperm h7 hop
  · rw [henc0 (by omega) (by omega) (by omega), htsel0 (by omega), hop]
    exact row_of_rotl _
  · have hg : w.extractLsb' 19 3 = 0 := by_contra fun hne => hsbox hne hop
    rw [henc0 (by omega) (by omega) (by omega), htsel0 (by omega), number_eq_append, hg, hop]
    exact row_of_sbox _

theorem rotl_not_illegalShape : ∀ n < 64, ¬IllegalShape (encode (.rotl n)) := by
  unfold IllegalShape
  decide

theorem sbox_not_illegalShape : ∀ g < 8, ¬IllegalShape (encode (.sbox g)) := by
  unfold IllegalShape
  decide

theorem encode_not_illegalShape {i : Instr} (h : i.WellFormed) : ¬IllegalShape (encode i) := by
  cases i with
  | rotl n => exact rotl_not_illegalShape n (of_decide_eq_true h)
  | sbox g => exact sbox_not_illegalShape g (of_decide_eq_true h)
  | encm ienc oenc | decm ienc oenc | conv ienc oenc =>
    unfold IllegalShape
    cases ienc <;> cases oenc <;> decide
  | _ =>
    unfold IllegalShape
    decide

theorem illegalShape_of_high {w : Word} (h : w.extractLsb' 32 32 ≠ 0) : IllegalShape w := by
  unfold IllegalShape
  simp only [h, ne_eq, not_false_eq_true, or_true]

/-- R98's list and the opcode table say the same. -/
theorem not_illegalShape_iff {w : Word} : ¬IllegalShape w ↔ ∃ i, decode w = .ok i := by
  constructor
  · intro h
    exact exists_decode_iff.mpr ⟨by_contra fun hhigh => h (illegalShape_of_high hhigh), exists_row_of_not_illegalShape h⟩
  · rintro ⟨i, hi⟩
    obtain ⟨hwf, rfl⟩ := encodeOfDecode w i hi
    exact encode_not_illegalShape hwf

theorem runCommand_of_illegal {w : Word} (h : ¬∃ i, decode w = .ok i) (s : State) :
    runCommand w s = .next ((s.setCmd w).failed .illegalCommand) := by
  cases hd : decode w with
  | error e =>
    rw [runCommand, hd]
    rfl
  | ok i => exact absurd ⟨i, hd⟩ h

/-- Settles O4: the words outside R98's list are those that decode, and a word that does not decode records IllegalCommand. -/
theorem listedWordsAreExactlyTheIllegalOnes : Obligations.ListedWordsAreExactlyTheIllegalOnes := by
  intro w
  constructor
  · exact fun h s => runCommand_of_illegal (fun hd => not_illegalShape_iff.mpr hd h) s
  · intro h
    obtain ⟨i, hi⟩ := not_illegalShape_iff.mp h
    exact ⟨i, hi, runCommand_of_decode hi⟩

end Sys2Proof.Claims
end

section
/-! PROOFS. The assembler's loading lines (30_encoding.md R101, R102), run access by access. -/

namespace Sys2Proof.Claims
open Sys2Proof.Machine

/-! ## One access of a run -/

theorem core_run_succ {M : Host.Core} {s t : M.State} (h : M.step s = .next t) (n : Nat) : M.run (n + 1) s = M.run n t := by
  rw [Host.Core.run, h]

theorem run_setPending {s t : State} {a : Access} {rest : List Access} (h : perform a (s.setPending rest) = .next t) (n : Nat) :
    run (n + 1) (s.setPending (a :: rest)) = run n t :=
  core_run_succ (M := Sys2Proof.core) (s := s.setPending (a :: rest)) h n

theorem writeReg_setPending {s t : State} {r : Reg} {v : Word} (h : s.writeReg r v = some t) (l : List Access) :
    (s.setPending l).writeReg r v = some (t.setPending l) := by
  cases r with
  | cmd | status | y | yLen | skw | msgOutLen | caps => exact nomatch h
  | _ => cases h; rfl

theorem run_wrReg {s t : State} {r : Reg} {v : Word} (hc : r ≠ .cmd) (h : s.writeReg r v = some t) (rest : List Access) (n : Nat) :
    run (n + 1) (s.setPending (wrReg r v :: rest)) = run n (t.setPending rest) :=
  run_setPending (perform_wr_index hc (writeReg_setPending h rest)) n

theorem run_rdReg {s : State} {r : Reg} {v : Word} (h : s.readReg r = some v) (rest : List Access) (n : Nat) :
    run (n + 1) (s.setPending (rdReg r :: rest)) = run n ((s.setRead v).setPending rest) := by
  have hv : (s.setPending rest).readReg r = some v := by cases r <;> exact h
  exact run_setPending (perform_rd_index hv) n

theorem run_wrMin {s : State} {i : Nat} (hi : i < s.caps.toNat) (v : Word) (rest : List Access) (n : Nat) :
    run (n + 1) (s.setPending (.wr .min i v :: rest)) = run n ((s.setMin i v).setPending rest) :=
  run_setPending (perform_wr_min (s := s.setPending rest) hi v) n

/-! ## The lines that load registers -/

theorem run_ldKey (s : State) (k : Word) (rest : List Access) :
    run 2 (s.setPending (ldKey k ++ rest)) = .next { s with key := k, keyLen := 64, pending := rest } :=
  (run_wrReg (r := .key) nofun rfl _ 1).trans (run_wrReg (s := { s with key := k }) (r := .keyLen) nofun rfl rest 0)

theorem run_ldA (s : State) (v n : Word) (rest : List Access) :
    run 2 (s.setPending (ldA v n ++ rest)) = .next { s with a := v, aLen := n.setWidth 8, pending := rest } :=
  (run_wrReg (r := .a) nofun rfl _ 1).trans (run_wrReg (s := { s with a := v }) (r := .aLen) nofun rfl rest 0)

theorem run_ldB (s : State) (v n : Word) (rest : List Access) :
    run 2 (s.setPending (ldB v n ++ rest)) = .next { s with b := v, bLen := n.setWidth 8, pending := rest } :=
  (run_wrReg (r := .b) nofun rfl _ 1).trans (run_wrReg (s := { s with b := v }) (r := .bLen) nofun rfl rest 0)

/-- The two reads with which MOVYA and MOVYB begin; the value last read is Y_LEN. -/
theorem run_readY (s : State) (line : List Access) (n : Nat) :
    run (n + 2) (s.setPending (rdReg .y :: rdReg .yLen :: line)) = run n ((s.setRead (s.yLen.setWidth 64)).setPending line) :=
  (run_rdReg (r := .y) rfl _ (n + 1)).trans (run_rdReg (s := s.setRead s.y) (r := .yLen) rfl line n)

theorem setWidth_yLen (s : State) : (s.yLen.setWidth 64).setWidth 8 = s.yLen := by
  rw [BitVec.setWidth_setWidth_of_le _ (by decide), BitVec.setWidth_eq]

theorem run_movYA (s : State) (rest : List Access) :
    run 4 (s.setPending (movYA s ++ rest)) =
      .next { s with a := s.y, aLen := s.yLen, readData := some (s.yLen.setWidth 64), pending := rest } := by
  have hload := (run_readY s (ldA s.y (s.yLen.setWidth 64) ++ rest) 2).trans (run_ldA _ _ _ rest)
  rwa [setWidth_yLen] at hload

theorem run_movYB (s : State) (rest : List Access) :
    run 4 (s.setPending (movYB s ++ rest)) =
      .next { s with b := s.y, bLen := s.yLen, readData := some (s.yLen.setWidth 64), pending := rest } := by
  have hload := (run_readY s (ldB s.y (s.yLen.setWidth 64) ++ rest) 2).trans (run_ldB _ _ _ rest)
  rwa [setWidth_yLen] at hload

/-- Settles O59, line by line. -/
theorem loadingLinesLoad : Obligations.LoadingLinesLoad := fun s v n rest =>
  ⟨run_ldKey s v rest, run_ldA s v n rest, run_ldB s v n rest, run_movYA s rest, run_movYB s rest⟩

/-! ## LDMSG -/

/-- The MIN element that a code point leaves (20_memory.md R62). -/
def codeUnits (codes : List Word) : List CodeUnit := codes.map (BitVec.setWidth 32)

theorem run_minWrites (s : State) (i : Nat) (codes : List Word) (rest : List Access) (n : Nat)
    (hfits : i + codes.length ≤ s.caps.toNat) :
    run (codes.length + n) (s.setPending (minWrites i codes ++ rest)) =
      run n ({ s with min := Memory.writeFrom s.min i (codeUnits codes) }.setPending rest) := by
  induction codes generalizing s i with
  | nil =>
    rw [List.length_nil, Nat.zero_add]
    rfl
  | cons c cs ih =>
    rw [List.length_cons] at hfits ⊢
    rw [Nat.add_right_comm]
    calc run (cs.length + n + 1) (s.setPending (.wr .min i c :: (minWrites (i + 1) cs ++ rest)))
      _ = run (cs.length + n) ((s.setMin i c).setPending (minWrites (i + 1) cs ++ rest)) := run_wrMin (by omega) c _ _
      _ = _ := ih (s.setMin i c) (i + 1) (by rw [State.setMin_caps]; omega)

theorem run_ldMsg (s : State) (codes : List Word) (rest : List Access) (hfits : codes.length ≤ s.caps.toNat) :
    run (codes.length + 1) (s.setPending (ldMsg codes ++ rest)) =
      .next { s with min := Memory.writeFrom s.min 0 (codeUnits codes), msgInLen := BitVec.ofNat 32 codes.length,
                     pending := rest } := by
  have hlen : (BitVec.ofNat 64 codes.length).setWidth 32 = BitVec.ofNat 32 codes.length := BitVec.setWidth_ofNat_of_le (by decide) _
  rw [ldMsg, List.append_assoc, run_minWrites s 0 codes _ 1 (by omega), ← hlen]
  exact run_wrReg (s := { s with min := Memory.writeFrom s.min 0 (codeUnits codes) }) (r := .msgInLen) nofun rfl rest 0

/-- Settles O60: the elements below the message's length are its code units, those from there on are as before. -/
theorem ldmsgLoadsTheMessage : Obligations.LdmsgLoadsTheMessage := by
  intro s codes rest hfits
  refine ⟨_, run_ldMsg s codes rest hfits, fun j => ?_⟩
  rw [Memory.read_writeFrom]
  by_cases hj : j < codes.length
  · simp [codeUnits, hj]
  · simp [codeUnits, hj]

end Sys2Proof.Claims
end

section
/-! PROOFS. PERMUTE and ROTL by positions (40_bitseq.md R120, R121), and the result functions of the bit-sequence commands, one lemma for
each outcome (R124 to R133). -/

namespace Sys2Proof.Machine

/-! ## Positions -/

/-- The position that ROTL brings to `p`, counted round (R121). -/
theorem pos_rotl_mod {n : Nat} (s : BitVec n) {k p : Nat} (hk : k < n) (h₁ : 1 ≤ p) (h₂ : p ≤ n) :
    pos (rotl s k) p = pos s ((p - 1 + k) % n + 1) := by
  rw [pos_rotl s hk.le h₁ h₂]
  congr 1
  split
  · next hfits => rw [Nat.mod_eq_of_lt (by omega)]; omega
  · next hwraps => rw [Nat.mod_eq_sub_mod (by omega), Nat.mod_eq_of_lt (by omega)]; omega

theorem pos_setWidth_of_eq {n m : Nat} (h : n = m) (s : BitVec n) (p : Nat) : pos (s.setWidth m) p = pos s p := by
  subst h
  rw [BitVec.setWidth_eq]

/-! ## The scan of PTAB -/

/-- What the scan of R124 answers for entry `j` alone, for an input of `n` positions. -/
def ptabEntry (ptab : Memory 8) (n j : Nat) : Except CmdError Nat :=
  match ptab.read j with
  | none => .error .uninitializedBuffer
  | some e => if e.toNat = 0 ∨ n < e.toNat then .error .malformedTable else .ok e.toNat

theorem ptabEntry_unwritten {ptab : Memory 8} {j : Nat} (h : ptab.read j = none) (n : Nat) :
    ptabEntry ptab n j = .error .uninitializedBuffer := by
  rw [ptabEntry, h]

theorem ptabEntry_outOfRange {ptab : Memory 8} {n j : Nat} {e : Byte} (h : ptab.read j = some e) (he : e.toNat = 0 ∨ n < e.toNat) :
    ptabEntry ptab n j = .error .malformedTable := by
  rw [ptabEntry, h]
  exact if_pos he

theorem ptabEntry_good {ptab : Memory 8} {n j : Nat} {e : Byte} (h : ptab.read j = some e) (h₁ : 1 ≤ e.toNat) (h₂ : e.toNat ≤ n) :
    ptabEntry ptab n j = .ok e.toNat := by
  rw [ptabEntry, h]
  exact if_neg (by omega)

/-- The scan reads one entry and goes on from the next. -/
theorem scanPtab_succ (ptab : Memory 8) (n count j : Nat) :
    scanPtab ptab n (count + 1) j = ptabEntry ptab n j >>= fun t => (scanPtab ptab n count (j + 1)).map (t :: ·) := by
  rw [scanPtab, ptabEntry]
  cases ptab.read j with
  | none => rfl
  | some e => dsimp only; split <;> rfl

theorem scanPtab_good {ptab : Memory 8} {n j : Nat} {T : List Nat}
    (h : ∀ (k : Nat) (hk : k < T.length), ptabEntry ptab n (j + k) = .ok T[k]) : scanPtab ptab n T.length j = .ok T := by
  induction T generalizing j with
  | nil => rfl
  | cons t ts ih =>
    have htail : scanPtab ptab n ts.length (j + 1) = .ok ts := ih fun k hk => by
      rw [Nat.add_right_comm]
      exact h (k + 1) (Nat.succ_lt_succ hk)
    have hhead : ptabEntry ptab n j = .ok t := h 0 (Nat.succ_pos _)
    rw [List.length_cons, scanPtab_succ, hhead, except_ok_bind, htail]
    rfl

/-- The first bad entry decides (R124). -/
theorem scanPtab_firstBad {ptab : Memory 8} {n count j k : Nat} {e : CmdError} (hk : k < count)
    (hgood : ∀ l < k, ∃ t, ptabEntry ptab n (j + l) = .ok t) (hbad : ptabEntry ptab n (j + k) = .error e) :
    scanPtab ptab n count j = .error e := by
  obtain ⟨count, rfl⟩ : ∃ c, count = c + 1 := ⟨count - 1, by omega⟩
  rw [scanPtab_succ]
  induction k generalizing count j with
  | zero =>
    rw [Nat.add_zero] at hbad
    rw [hbad, except_error_bind]
  | succ k ih =>
    obtain ⟨count, rfl⟩ : ∃ c, count = c + 1 := ⟨count - 1, by omega⟩
    obtain ⟨t, ht⟩ := hgood 0 (Nat.succ_pos k)
    rw [Nat.add_zero] at ht
    rw [ht, except_ok_bind, scanPtab_succ, ih]
    · rfl
    · intro l hl
      rw [Nat.add_right_comm]
      exact hgood (l + 1) (Nat.succ_lt_succ hl)
    · rwa [Nat.add_right_comm]
    · omega

/-! ## PERM and its fixed tables -/

section

variable {s : State}

theorem tableOperand_legal (h : s.ptabLen.toNat ≤ 64) (n : Nat) : tableOperand s n = scanPtab s.ptab n s.ptabLen.toNat 0 :=
  if_neg (Nat.not_lt.mpr h)

theorem tableOperand_tooLong (h : 64 < s.ptabLen.toNat) (n : Nat) : tableOperand s n = .error .malformedTable := if_pos h

theorem permResult_operandTooLong (h : 64 < s.aLen.toNat) : permResult s = .error .invalidBlockLength := by
  rw [permResult, opndA_tooLong s h, except_error_bind]

theorem permResult_badTable {e : CmdError} (ha : s.aLen.toNat ≤ 64) (hT : tableOperand s s.aLen.toNat = .error e) :
    permResult s = .error e := by
  rw [permResult, opndA_legal s ha, except_ok_bind, hT, except_error_bind]

theorem permResult_ok {T : List Nat} (ha : s.aLen.toNat ≤ 64) (hT : tableOperand s s.aLen.toNat = .ok T) :
    permResult s = .ok ⟨s.ptabLen.toNat, permute s.ptabLen.toNat (s.a.setWidth s.aLen.toNat) T⟩ := by
  rw [permResult, opndA_legal s ha, except_ok_bind, hT, ← (tableOperand_length hT).1]
  rfl

variable {max m : Nat} {T : List Nat}

theorem permuteA_ok (hmax : max ≤ s.aLen.toNat) (ha : s.aLen.toNat ≤ 64) :
    permuteA s max m T = .ok ⟨m, permute m (s.a.setWidth s.aLen.toNat) T⟩ := by
  rw [permuteA, opndA_legal s ha, except_ok_bind, failIf_pass _ _ (decide_eq_false (Nat.not_lt.mpr hmax))]
  rfl

theorem permuteA_tooLong (h : 64 < s.aLen.toNat) : permuteA s max m T = .error .invalidBlockLength := by
  rw [permuteA, opndA_tooLong s h, except_error_bind]

theorem permuteA_tooShort (hmax : s.aLen.toNat < max) (ha : s.aLen.toNat ≤ 64) : permuteA s max m T = .error .malformedTable := by
  rw [permuteA, opndA_legal s ha, except_ok_bind, failIf_of _ _ (decide_eq_true hmax), except_error_bind]

/-! ## ROTL, XOR and CAT -/

variable {n : Nat}

theorem rotlResult_ok (hn : n < s.aLen.toNat) (ha : s.aLen.toNat ≤ 64) :
    rotlResult n s = .ok ⟨s.aLen.toNat, rotl (s.a.setWidth s.aLen.toNat) n⟩ := by
  rw [rotlResult, failIf_pass _ _ (decide_eq_false (by omega)), except_ok_bind, opndA_legal s ha, except_ok_bind,
    failIf_pass _ _ (decide_eq_false (Nat.not_le.mpr hn))]
  rfl

theorem rotlResult_tooLong (hn : n < 64) (h : 64 < s.aLen.toNat) : rotlResult n s = .error .invalidBlockLength := by
  rw [rotlResult, failIf_pass _ _ (decide_eq_false (Nat.not_le.mpr hn)), except_ok_bind, opndA_tooLong s h, except_error_bind]

theorem rotlResult_badAmount (hn : n < 64) (h : s.aLen.toNat ≤ n) : rotlResult n s = .error .invalidRotateAmount := by
  rw [rotlResult, failIf_pass _ _ (decide_eq_false (Nat.not_le.mpr hn)), except_ok_bind, opndA_legal s (by omega), except_ok_bind,
    failIf_of _ _ (decide_eq_true h), except_error_bind]

theorem xorResult_ok (ha : s.aLen.toNat ≤ 64) (heq : s.aLen = s.bLen) :
    xorResult s = .ok ⟨s.aLen.toNat, s.a.setWidth s.aLen.toNat ^^^ (s.b.setWidth s.bLen.toNat).setWidth s.aLen.toNat⟩ := by
  rw [xorResult, opndA_legal s ha, except_ok_bind, opndB_legal s (heq ▸ ha), except_ok_bind,
    failIf_pass _ _ (decide_eq_false (not_not.mpr (congrArg BitVec.toNat heq)))]
  rfl

theorem xorResult_tooLong (h : 64 < s.aLen.toNat ∨ 64 < s.bLen.toNat) : xorResult s = .error .invalidBlockLength := by
  by_cases ha : s.aLen.toNat ≤ 64
  · rw [xorResult, opndA_legal s ha, except_ok_bind, opndB_tooLong s (h.resolve_left (Nat.not_lt.mpr ha)), except_error_bind]
  · rw [xorResult, opndA_tooLong s (Nat.not_le.mp ha), except_error_bind]

theorem xorResult_mismatch (ha : s.aLen.toNat ≤ 64) (hb : s.bLen.toNat ≤ 64) (hne : s.aLen ≠ s.bLen) :
    xorResult s = .error .lengthMismatch := by
  rw [xorResult, opndA_legal s ha, except_ok_bind, opndB_legal s hb, except_ok_bind,
    failIf_of _ _ (decide_eq_true (mt BitVec.eq_of_toNat_eq hne)), except_error_bind]

theorem catResult_ok (h : s.aLen.toNat + s.bLen.toNat ≤ 64) :
    catResult s = .ok ⟨s.aLen.toNat + s.bLen.toNat, s.a.setWidth s.aLen.toNat ++ s.b.setWidth s.bLen.toNat⟩ := by
  rw [catResult, opndA_legal s (by omega), except_ok_bind, opndB_legal s (by omega), except_ok_bind,
    failIf_pass _ _ (decide_eq_false (Nat.not_lt.mpr h))]
  rfl

/-- An operand above 64 bits alone is too long, and so is the join of two legal ones (R133). -/
theorem catResult_tooLong (h : 64 < s.aLen.toNat + s.bLen.toNat) : catResult s = .error .invalidBlockLength := by
  by_cases ha : s.aLen.toNat ≤ 64
  · by_cases hb : s.bLen.toNat ≤ 64
    · rw [catResult, opndA_legal s ha, except_ok_bind, opndB_legal s hb, except_ok_bind, failIf_of _ _ (decide_eq_true h),
        except_error_bind]
    · rw [catResult, opndA_legal s ha, except_ok_bind, opndB_tooLong s (Nat.not_le.mp hb), except_error_bind]
  · rw [catResult, opndA_tooLong s (Nat.not_le.mp ha), except_error_bind]

end

end Sys2Proof.Machine

namespace Sys2Proof.Claims
open Sys2Proof.Machine

/-- Settles O6: entry `j` contributes one bit to the sum of R120, at position `j + 1`. -/
theorem permuteSelectsPositions : Obligations.PermuteSelectsPositions := fun _ s T _ j h => pos_permute_of_length s T rfl j h

/-- Settles O7, from the laws of a rotation's value and positions. -/
theorem rotateLeftMovesPositions : Obligations.RotateLeftMovesPositions := fun _ s k hk =>
  ⟨rotl_toNat s k, fun _ h₁ h₂ => pos_rotl_mod s hk h₁ h₂, rotl_zero s⟩

/-! ## From a result to the command's answer (60_exceptions.md R303, R304) -/

theorem answersY_of_result {i : Instr} {s : State} {n : Nat} {v : BitVec n} (hi : writesY i = true)
    (h : resultOf i s = .ok ⟨n, v⟩) : AnswersY i s n v := by
  rw [AnswersY, exec_writesY hi, h]
  rfl

theorem answersError_of_result {i : Instr} {s : State} {e : CmdError} {code : Nat} (hi : writesY i = true)
    (h : resultOf i s = .error e) (hcode : e.code = BitVec.ofNat 8 code) : AnswersError i s code := by
  rw [AnswersError, exec_writesY hi, h, errStatus, ← hcode]
  rfl

/-! ## PERM (40_bitseq.md R124) -/

/-- Settles O16: the scan's entries, one by one, decide. -/
theorem permPermutesByTheHostTable : Obligations.PermPermutesByTheHostTable := by
  refine ⟨decodeOfEncode .perm rfl, fun s => ⟨?_, ?_, ?_, ?_⟩⟩
  · intro T ha hlen hT hentries
    have hlen' : (T.map BitVec.toNat).length = s.ptabLen.toNat := (List.length_map _).trans hT
    have hscan : tableOperand s s.aLen.toNat = .ok (T.map BitVec.toNat) := by
      rw [tableOperand_legal hlen, ← hlen']
      refine scanPtab_good fun k hk => ?_
      obtain ⟨hread, hpos, hle⟩ := hentries k (by simpa using hk)
      rw [Nat.zero_add, List.getElem_map, ptabEntry_good hread hpos hle]
    refine ⟨_, answersY_of_result rfl (permResult_ok ha hscan), fun j hj => ?_⟩
    rw [pos_permute_of_length _ _ hlen' j (by simpa using hj), List.getElem_map]
    rfl
  · exact fun h => answersError_of_result rfl (permResult_operandTooLong h) rfl
  · exact fun ha h => answersError_of_result rfl (permResult_badTable ha (tableOperand_tooLong h _)) rfl
  · intro j ha hlen hj hbefore
    have hgood : ∀ l < j, ∃ t, ptabEntry s.ptab s.aLen.toNat (0 + l) = .ok t := fun l hl => by
      obtain ⟨e, hread, hpos, hle⟩ := hbefore l hl
      rw [Nat.zero_add]
      exact ⟨_, ptabEntry_good hread hpos hle⟩
    have hfail {e : CmdError} (hbad : ptabEntry s.ptab s.aLen.toNat j = .error e) : permResult s = .error e := by
      rw [← Nat.zero_add j] at hbad
      exact permResult_badTable ha ((tableOperand_legal hlen _).trans (scanPtab_firstBad hj hgood hbad))
    exact ⟨fun hnone => answersError_of_result rfl (hfail (ptabEntry_unwritten hnone _)) rfl,
      fun e hread he => answersError_of_result rfl (hfail (ptabEntry_outOfRange hread he)) rfl⟩

/-! ## The fixed tables (40_bitseq.md R125 to R130) -/

/-- The command `i` with the word `w` permutes A by the table `T`, whose largest entry is `max`. -/
structure PermutesByTable (i : Instr) (w : Word) (max : Nat) (T : List Nat) : Prop where
  wellFormed : i.WellFormed
  word : encode i = w
  writes_y : writesY i = true
  result : ∀ s, resultOf i s = permuteA s max T.length T
  max_mem : max ∈ T
  entries : ∀ t ∈ T, 1 ≤ t ∧ t ≤ max
  max_le : max ≤ 64

theorem permutesByTable_of_mem {i : Instr} {w : Word} {max : Nat} {T : List Nat} (h : (i, w, max, T) ∈ fixedPermutations) :
    PermutesByTable i w max T := by
  have hall : ∀ x ∈ fixedPermutations, PermutesByTable x.1 x.2.1 x.2.2.1 x.2.2.2 := by
    simp only [fixedPermutations, List.forall_mem_cons]
    refine ⟨?_, ?_, ?_, ?_, ?_, ?_, nofun⟩ <;>
      exact ⟨rfl, rfl, rfl, fun _ => rfl, by decide, by decide, by decide⟩
  exact hall _ h

/-- Settles O17: the six commands have one shape. -/
theorem fixedPermutationsSelectPositions : Obligations.FixedPermutationsSelectPositions := by
  intro i w max T hmem
  obtain ⟨hwf, rfl, hi, hresult, hmax, hentries, hle⟩ := permutesByTable_of_mem hmem
  refine ⟨decodeOfEncode i hwf, ⟨hmax, hentries⟩, fun s => ⟨fun hfits ha => ?_, fun h => ?_, fun h => ?_⟩⟩
  · exact ⟨_, answersY_of_result hi ((hresult s).trans (permuteA_ok hfits ha)), pos_permute_of_length _ T rfl⟩
  · exact answersError_of_result hi ((hresult s).trans (permuteA_tooLong h)) rfl
  · exact answersError_of_result hi ((hresult s).trans (permuteA_tooShort h (by omega))) rfl

/-! ## ROTL, XOR and CAT (40_bitseq.md R131 to R133) -/

theorem encode_rotl : ∀ n < 64, encode (.rotl n) = 0x00000008 ||| (BitVec.ofNat 64 n <<< 16) := by decide

/-- Settles O18: the amounts below 64 are those with a word, and one below A_LEN passes the check. -/
theorem rotlRotatesA : Obligations.RotlRotatesA := by
  intro s n hn
  refine ⟨?_, fun hlt ha => ?_, fun h => ?_, fun h => ?_⟩
  · rw [← encode_rotl n hn]
    exact decodeOfEncode (.rotl n) (decide_eq_true hn)
  · exact ⟨_, answersY_of_result rfl (rotlResult_ok hlt ha), fun _ h₁ h₂ => pos_rotl_mod _ hlt h₁ h₂⟩
  · exact answersError_of_result rfl (rotlResult_tooLong hn h) rfl
  · exact answersError_of_result rfl (rotlResult_badAmount hn h) rfl

/-- Settles O19: where the lengths are equal, no position of B is lost. -/
theorem xorCombinesPositions : Obligations.XorCombinesPositions := by
  refine ⟨decodeOfEncode .xor rfl, fun s => ⟨fun heq ha => ?_, fun h => ?_, fun ha hb hne => ?_⟩⟩
  · refine ⟨_, answersY_of_result rfl (xorResult_ok ha heq), fun p _ _ => ?_⟩
    rw [pos_xor, pos_setWidth_of_eq (congrArg BitVec.toNat heq.symm)]
    rfl
  · exact answersError_of_result rfl (xorResult_tooLong h) rfl
  · exact answersError_of_result rfl (xorResult_mismatch ha hb hne) rfl

/-- Settles O20: a join that fits has two legal operands. -/
theorem catJoinsAAndB : Obligations.CatJoinsAAndB := by
  refine ⟨decodeOfEncode .cat rfl, fun s => ⟨fun h => ?_, fun h => ?_⟩⟩
  · exact ⟨_, answersY_of_result rfl (catResult_ok h), fun _ _ h₂ => pos_append_left _ _ h₂,
      fun _ h₁ h₂ => pos_append_right _ _ h₁ h₂⟩
  · exact answersError_of_result rfl (catResult_tooLong h) rfl

end Sys2Proof.Claims
end

section
/-! PROOFS. The key schedule (41_key_schedule.md): each subkey from the total rotation (R164, R167), the positions PC-1 leaves out (R161),
DERIVE (R168), and what complementing a key and a block does (R166; 42_round_function.md R202; 43_block_cipher.md R223). -/

namespace Sys2Proof.Machine

/-! ## Total rotations (41_key_schedule.md R164) -/

/-- Entry `j` is made of the halves rotated by the first `j + 1` amounts together, within one turn. -/
theorem subkeysFrom_getElem? {ks : List Nat} {j : Nat} (hj : j < ks.length) (hturn : (ks.take (j + 1)).sum ≤ 28) (c d : KeyHalf) :
    (subkeysFrom ks c d)[j]? =
      some (permute 48 (rotl c (ks.take (j + 1)).sum ++ rotl d (ks.take (j + 1)).sum) tablePC2) := by
  induction ks generalizing j c d with
  | nil => exact nomatch hj
  | cons k ks ih =>
    cases j with
    | zero => simp [subkeysFrom]
    | succ j =>
      rw [List.take_succ_cons, List.sum_cons] at hturn ⊢
      rw [subkeysFrom, List.getElem?_cons_succ, ih (Nat.lt_of_succ_lt_succ hj) (by omega), rotl_rotl c hturn, rotl_rotl d hturn]

/-- Rotations one after another, within one turn, are one rotation by their sum. -/
theorem foldl_rotl {n : Nat} (s : BitVec n) {ks : List Nat} (hturn : ks.sum ≤ n) : ks.foldl rotl s = rotl s ks.sum := by
  induction ks generalizing s with
  | nil => exact (rotl_zero s).symm
  | cons k ks ih =>
    rw [List.sum_cons] at hturn ⊢
    rw [List.foldl_cons, ih (rotl s k) (by omega), rotl_rotl s hturn]

theorem sum_take_shifts_le : ∀ r ≤ 16, (shifts.take r).sum ≤ 28 := by decide

theorem sum_shifts : shifts.sum = 28 := rfl

/-! ## The positions a permutation reads (40_bitseq.md R120) -/

theorem permute_congr {n m : Nat} {s t : BitVec n} {T : List Nat} (h : ∀ p ∈ T, pos s p = pos t p) : permute m s T = permute m t T := by
  suffices permuteValue s T = permuteValue t T by rw [permute, permute, this]
  induction T with
  | nil => rfl
  | cons p T ih =>
    obtain ⟨hp, hT⟩ := List.forall_mem_cons.mp h
    rw [permuteValue, permuteValue, hp, ih hT]

theorem tablePC1_bounds : ∀ p ∈ tablePC1, 1 ≤ p ∧ p ≤ 64 := by decide

theorem not_mem_tablePC1_iff {p : Nat} (h₁ : 1 ≤ p) (h₂ : p ≤ 64) : p ∉ tablePC1 ↔ p % 8 = 0 :=
  have hall : ∀ q ≤ 64, 1 ≤ q → (q ∉ tablePC1 ↔ q % 8 = 0) := by decide
  hall p h₂ h₁

/-- KS reads no parity position (41_key_schedule.md R161). -/
theorem keySchedule_congr {k k' : Word} (h : ∀ p, 1 ≤ p → p ≤ 64 → p % 8 ≠ 0 → pos k p = pos k' p) :
    keySchedule k = keySchedule k' := by
  have hPC1 : permute 56 k tablePC1 = permute 56 k' tablePC1 := permute_congr fun p hp =>
    have ⟨h₁, h₂⟩ := tablePC1_bounds p hp
    h p h₁ h₂ fun hparity => (not_mem_tablePC1_iff h₁ h₂).mpr hparity hp
  rw [keySchedule, hPC1, keySchedule]

theorem setSchedule_congr {k k' : Word} (h : keySchedule k = keySchedule k') (s : State) : s.setSchedule k = s.setSchedule k' := by
  rw [State.setSchedule, State.setSchedule, keyScheduleFile_congr h]

/-- Keys with the same subkeys are derived alike: the next states differ in KEY alone (41_key_schedule.md R168). -/
theorem execDerive_key_congr {k k' : Word} (h : keySchedule k = keySchedule k') {s t : State}
    (ht : execDerive { s with key := k } = .next t) : execDerive { s with key := k' } = .next { t with key := k' } := by
  rcases execDerive_next ht with ⟨hlen, rfl⟩ | ⟨hlen, rfl⟩
  · exact execDerive_illegal hlen
  · rw [execDerive_legal (s := { s with key := k' }) hlen, setSchedule_congr h.symm]
    rfl

/-! ## Complements -/

theorem firstBits_not {n k : Nat} (s : BitVec n) (hk : k ≤ n) : firstBits k (~~~s) = ~~~(firstBits k s) := by
  apply eq_of_pos
  intro p h₁ h₂
  rw [pos_not _ h₁ h₂, pos_firstBits _ hk h₁ h₂, pos_firstBits _ hk h₁ h₂, pos_not s h₁ (h₂.trans hk)]

theorem lastBits_not {n k : Nat} (s : BitVec n) (hk : k ≤ n) : lastBits k (~~~s) = ~~~(lastBits k s) := BitVec.setWidth_not hk

theorem permute_tablePC1_not (key : Word) : permute 56 (~~~key) tablePC1 = ~~~(permute 56 key tablePC1) :=
  permute_not key tablePC1 rfl tablePC1_bounds

theorem permute_tablePC2_not (cd : BitVec 56) : permute 48 (~~~cd) tablePC2 = ~~~(permute 48 cd tablePC2) :=
  permute_not cd tablePC2 rfl (by decide)

theorem permute_tableE_not (r : Half) : permute 48 (~~~r) tableE = ~~~(permute 48 r tableE) :=
  permute_not r tableE rfl (by decide)

theorem permute_tableIP_not (b : Word) : permute 64 (~~~b) tableIP = ~~~(permute 64 b tableIP) :=
  permute_not b tableIP rfl (by decide)

theorem permute_tableFP_not (b : Word) : permute 64 (~~~b) tableFP = ~~~(permute 64 b tableFP) :=
  permute_not b tableFP rfl (by decide)

theorem subkeysFrom_not {ks : List Nat} (hks : ∀ k ∈ ks, k ≤ 28) (c d : KeyHalf) :
    subkeysFrom ks (~~~c) (~~~d) = (subkeysFrom ks c d).map (~~~ ·) := by
  induction ks generalizing c d with
  | nil => rfl
  | cons k ks ih =>
    obtain ⟨hk, hks⟩ := List.forall_mem_cons.mp hks
    rw [subkeysFrom, rotl_not c hk, rotl_not d hk, ← BitVec.not_append, permute_tablePC2_not, ih hks, subkeysFrom,
      List.map_cons]

/-- The complement of a key has the complements of its subkeys (41_key_schedule.md R166). -/
theorem keySchedule_not (key : Word) : keySchedule (~~~key) = (keySchedule key).map (~~~ ·) := by
  rw [keySchedule, permute_tablePC1_not, firstBits_not _ (by decide), lastBits_not _ (by decide),
    subkeysFrom_not (by decide), keySchedule]

/-- F does not see a complement of both its inputs: they are combined by XOR before the boxes (42_round_function.md R202). -/
theorem feistel_not_not (r : Half) (k : Subkey) : feistel (~~~r) (~~~k) = feistel r k := by
  rw [feistel, permute_tableE_not, ← BitVec.not_xor_left, ← BitVec.not_xor_right, BitVec.not_not, feistel]

theorem desRounds_not (ks : List Subkey) (l r : Half) :
    desRounds (ks.map (~~~ ·)) (~~~l) (~~~r) = (~~~(desRounds ks l r).1, ~~~(desRounds ks l r).2) := by
  induction ks generalizing l r with
  | nil => rfl
  | cons k ks ih => rw [List.map_cons, desRounds, feistel_not_not, ← BitVec.not_xor_left, ih, desRounds]

theorem swapAndFinish_not (l r : Half) : swapAndFinish (~~~l, ~~~r) = ~~~(swapAndFinish (l, r)) := by
  rw [swapAndFinish, ← BitVec.not_append, permute_tableFP_not, swapAndFinish]

/-- Complementing the block and every subkey complements the result, for any number of rounds (43_block_cipher.md R223). -/
theorem desBlock_not (b : Word) (ks : List Subkey) : desBlock (~~~b) (ks.map (~~~ ·)) = ~~~(desBlock b ks) := by
  rw [desBlock, permute_tableIP_not, firstBits_not _ (by decide), lastBits_not _ (by decide), desRounds_not,
    swapAndFinish_not, desBlock]

end Sys2Proof.Machine

namespace Sys2Proof.Claims
open Sys2Proof.Machine

/-- Settles O11: the sixteen amounts are one whole turn of a half, so no earlier sum passes it. -/
theorem subkeysComeFromTotalRotations : Obligations.SubkeysComeFromTotalRotations := by
  refine ⟨fun key r h₁ h₂ => ?_, fun c => ?_⟩
  · obtain ⟨j, rfl⟩ : ∃ j, r = j + 1 := ⟨r - 1, by omega⟩
    exact subkeysFrom_getElem? h₂ (sum_take_shifts_le _ h₂) _ _
  · rw [foldl_rotl c sum_shifts.le, sum_shifts, rotl_full]

/-- Settles O12: PC-1 leaves out the multiples of 8, and a key acts through PC-1 alone. -/
theorem parityBitsDoNotMatter : Obligations.ParityBitsDoNotMatter := by
  refine ⟨fun p => not_mem_tablePC1_iff, fun k k' h => ?_⟩
  have hKS := keySchedule_congr h
  exact ⟨hKS, fun s t => execDerive_key_congr hKS⟩

/-- Settles O15: a complement passes through KS to every subkey, and through the rounds to the result. -/
theorem complementedKeyAndBlockComplementTheResult : Obligations.ComplementedKeyAndBlockComplementTheResult := fun k b => by
  rw [encBlock, keySchedule_not, desBlock_not, encBlock]

/-- Settles O23: the file DERIVE writes is KS(KEY), entry by entry. -/
theorem deriveLoadsTheSubkeyFile : Obligations.DeriveLoadsTheSubkeyFile := by
  refine ⟨decodeOfEncode .derive rfl, fun s => ⟨fun hlen => ?_, fun hlen => ?_⟩⟩
  · exact ⟨keyScheduleFile s.key, execDerive_legal (congrArg BitVec.toNat hlen), fun r => List.getElem?_eq_getElem _⟩
  · exact execDerive_illegal fun h => hlen (BitVec.eq_of_toNat_eq h)

end Sys2Proof.Claims
end

section
/-! PROOFS. The round function (42_round_function.md): the S-box grid (R205), F bit by bit (R200 to R202), and the commands SBOX (R203)
and FEIS (R204). -/

namespace Sys2Proof.Machine
open Sys2Proof.Claims (sboxEntry)

/-! ## The S-box grid (42_round_function.md R200, R205) -/

theorem sboxRow_lt (x : BitVec 6) : sboxRow x < 4 := by
  have h₁ := Bool.toNat_le (pos x 1)
  have h₆ := Bool.toNat_le (pos x 6)
  rw [sboxRow]
  omega

theorem sboxCol_lt (x : BitVec 6) : sboxCol x < 16 := by
  have h₂ := Bool.toNat_le (pos x 2)
  have h₃ := Bool.toNat_le (pos x 3)
  have h₄ := Bool.toNat_le (pos x 4)
  have h₅ := Bool.toNat_le (pos x 5)
  rw [sboxCol]
  omega

/-- The row is `u[5]` and `u[0]`, the column is `u[4:1]` (R200). -/
theorem sboxRow_sboxCol_eq : ∀ x : BitVec 6, sboxRow x = x.toNat / 32 * 2 + x.toNat % 2 ∧ sboxCol x = x.toNat / 2 % 16 := by decide

theorem sboxes_grid : ∀ box ∈ sboxes, box.length = 4 ∧ ∀ row ∈ box, row.length = 16 ∧ ∀ v ∈ row, v < 16 := by decide

/-- The grid of every box has a 4-bit entry at each row and column (R205). -/
theorem sboxEntry_mem_grid {g row col : Nat} (hg : g < 8) (hrow : row < 4) (hcol : col < 16) :
    ∃ box entries, sboxes[g]? = some box ∧ box[row]? = some entries ∧ entries[col]? = some (sboxEntry g row col) ∧
      sboxEntry g row col < 16 := by
  obtain ⟨box, hbox⟩ : ∃ box, sboxes[g]? = some box := ⟨_, List.getElem?_eq_getElem hg⟩
  obtain ⟨hrows, hgrid⟩ := sboxes_grid box (List.mem_of_getElem? hbox)
  obtain ⟨entries, hentries⟩ : ∃ entries, box[row]? = some entries := ⟨_, List.getElem?_eq_getElem (hrows ▸ hrow)⟩
  obtain ⟨hcols, hsmall⟩ := hgrid entries (List.mem_of_getElem? hentries)
  obtain ⟨v, hv⟩ : ∃ v, entries[col]? = some v := ⟨_, List.getElem?_eq_getElem (hcols ▸ hcol)⟩
  have hentry : sboxEntry g row col = v := by
    simp only [sboxEntry, List.getD_eq_getElem?_getD, hbox, hentries, hv, Option.getD_some]
  rw [hentry]
  exact ⟨box, entries, hbox, hentries, hv, hsmall v (List.mem_of_getElem? hv)⟩

theorem subst_eq_sboxEntry (g : Nat) (x : BitVec 6) : subst g x = BitVec.ofNat 4 (sboxEntry g (sboxRow x) (sboxCol x)) := rfl

theorem subst_toNat {g : Nat} (hg : g < 8) (x : BitVec 6) : (subst g x).toNat = sboxEntry g (sboxRow x) (sboxCol x) := by
  obtain ⟨-, -, -, -, -, hsmall⟩ := sboxEntry_mem_grid hg (sboxRow_lt x) (sboxCol_lt x)
  exact Nat.mod_eq_of_lt hsmall

theorem pos_subst {g : Nat} (hg : g < 8) (x : BitVec 6) (i : Nat) :
    pos (subst g x) i = (sboxEntry g (sboxRow x) (sboxCol x)).testBit (4 - i) := by
  rw [← subst_toNat hg, BitVec.testBit_toNat, pos_eq]

/-! ## The substitution layer, position by position (42_round_function.md R201) -/

/-- The outputs of the boxes of groups 0 to `k`, first group first. -/
def substGroups (x : BitVec 48) : (k : Nat) → BitVec (4 * (k + 1))
  | 0 => subst 0 (seg x 0 6)
  | k + 1 => substGroups x k ++ subst (k + 1) (seg x (k + 1) 6)

theorem slayer_eq_substGroups (x : BitVec 48) : slayer x = substGroups x 7 := rfl

theorem pos_substGroups (x : BitVec 48) {g k i : Nat} (hg : g ≤ k) (h₁ : 1 ≤ i) (h₂ : i ≤ 4) :
    pos (substGroups x k) (4 * g + i) = pos (subst g (seg x g 6)) i := by
  induction k with
  | zero =>
    obtain rfl : g = 0 := Nat.le_zero.mp hg
    exact congrArg (pos (subst 0 (seg x 0 6))) (Nat.zero_add i)
  | succ k ih =>
    rcases Nat.le_succ_iff.mp hg with hlt | rfl
    · exact (pos_append_left _ _ (by omega)).trans (ih hlt)
    · exact pos_append_right _ _ h₁ h₂

/-- Position `q` of SLAYER is a position of the box of group `(q - 1) / 4`. -/
theorem pos_slayer (x : BitVec 48) {q : Nat} (h₁ : 1 ≤ q) (h₂ : q ≤ 32) :
    pos (slayer x) q = pos (subst ((q - 1) / 4) (seg x ((q - 1) / 4) 6)) ((q - 1) % 4 + 1) := by
  rw [slayer_eq_substGroups, ← pos_substGroups (k := 7) x (by omega) (by omega) (by omega)]
  congr 1
  omega

/-! ## F, position by position (42_round_function.md R202) -/

theorem tableP_bounds : ∀ j < 32, 1 ≤ tableP.getD j 0 ∧ tableP.getD j 0 ≤ 32 := by decide

/-- A permutation selects through its table, by positions (40_bitseq.md R120). -/
theorem pos_permute_getD {n m : Nat} (s : BitVec n) {T : List Nat} (hm : T.length = m) {p : Nat} (h₁ : 1 ≤ p) (h₂ : p ≤ m) :
    pos (permute m s T) p = pos s (T.getD (p - 1) 0) := by
  obtain ⟨j, rfl⟩ : ∃ j, p = j + 1 := ⟨p - 1, by omega⟩
  rw [pos_permute_of_length s T hm j (hm ▸ h₂), Nat.add_sub_cancel, List.getD_eq_getElem]

/-- Position `c` of group `g` of the expanded and keyed half. -/
theorem pos_seg_expand_xor (r : Half) (k : Subkey) {g c : Nat} (hg : g < 8) (h₁ : 1 ≤ c) (h₂ : c ≤ 6) :
    pos (seg (permute 48 r tableE ^^^ k) g 6) c = (pos r (tableE.getD (6 * g + c - 1) 0) ^^ pos k (6 * g + c)) := by
  rw [pos_seg _ (by omega) h₁ h₂, Nat.mul_comm g 6, pos_xor, pos_permute_getD (m := 48) r rfl (by omega) (by omega)]

/-! ## SBOX and FEIS -/

section

variable {s : State} {g : Nat}

theorem sboxResult_ok (hg : g < 8) (hlen : s.aLen.toNat = 6) : sboxResult g s = .ok ⟨4, subst g (s.a.setWidth 6)⟩ := by
  rw [sboxResult, failIf_pass _ _ (decide_eq_false (Nat.not_le.mpr hg)), except_ok_bind, opndA_legal s (by omega), except_ok_bind,
    failIf_pass _ _ (decide_eq_false (not_not.mpr hlen)), except_ok_bind, BitVec.setWidth_setWidth_of_le _ hlen.ge]
  rfl

theorem sboxResult_badLength (hg : g < 8) (hlen : s.aLen.toNat ≠ 6) : sboxResult g s = .error .invalidBlockLength := by
  rw [sboxResult, failIf_pass _ _ (decide_eq_false (Nat.not_le.mpr hg)), except_ok_bind]
  by_cases ha : s.aLen.toNat ≤ 64
  · rw [opndA_legal s ha, except_ok_bind, failIf_of _ _ (decide_eq_true hlen), except_error_bind]
  · rw [opndA_tooLong s (Nat.not_le.mp ha), except_error_bind]

theorem feisResult_ok (ha : s.aLen.toNat = 32) (hb : s.bLen.toNat = 48) :
    feisResult s = .ok ⟨32, feistel (s.a.setWidth 32) (s.b.setWidth 48)⟩ := by
  rw [feisResult, opndA_legal s (by omega), except_ok_bind, opndB_legal s (by omega), except_ok_bind,
    failIf_pass _ _ (decide_eq_false (not_not.mpr ha)), except_ok_bind,
    failIf_pass _ _ (decide_eq_false (not_not.mpr hb)), except_ok_bind,
    BitVec.setWidth_setWidth_of_le _ ha.ge, BitVec.setWidth_setWidth_of_le _ hb.ge]
  rfl

/-- Each of the four checks of R204 raises the same error. -/
theorem feisResult_badLength (hlen : ¬(s.aLen.toNat = 32 ∧ s.bLen.toNat = 48)) : feisResult s = .error .invalidBlockLength := by
  rw [feisResult]
  by_cases ha : s.aLen.toNat ≤ 64
  · rw [opndA_legal s ha, except_ok_bind]
    by_cases hb : s.bLen.toNat ≤ 64
    · rw [opndB_legal s hb, except_ok_bind]
      by_cases ha' : s.aLen.toNat = 32
      · have hb' : s.bLen.toNat ≠ 48 := fun h => hlen ⟨ha', h⟩
        rw [failIf_pass _ _ (decide_eq_false (not_not.mpr ha')), except_ok_bind, failIf_of _ _ (decide_eq_true hb'), except_error_bind]
      · rw [failIf_of _ _ (decide_eq_true ha'), except_error_bind]
    · rw [opndB_tooLong s (Nat.not_le.mp hb), except_error_bind]
  · rw [opndA_tooLong s (Nat.not_le.mp ha), except_error_bind]

end

end Sys2Proof.Machine

namespace Sys2Proof.Claims
open Sys2Proof.Machine

/-- Settles O9: every row and column has an entry in the grid. -/
theorem sboxLookupsStayInTheGrid : Obligations.SboxLookupsStayInTheGrid := by
  intro g x
  obtain ⟨box, row, hbox, hrow, hentry, hsmall⟩ := sboxEntry_mem_grid g.isLt (sboxRow_lt x) (sboxCol_lt x)
  exact ⟨sboxRow_lt x, sboxCol_lt x, box, row, _, hbox, hrow, hentry, hsmall, subst_toNat g.isLt x⟩

/-- Settles O10: P selects a position of SLAYER, which is a bit of one box's entry; E and the subkey give that box's six bits. -/
theorem feistelBitByBit : Obligations.FeistelBitByBit := by
  intro r k p h₁ h₂ q g x
  obtain ⟨hq₁, hq₂⟩ : 1 ≤ q ∧ q ≤ 32 := tableP_bounds (p - 1) (by omega)
  have hg : g < 8 := by omega
  have hx (c : Nat) (hc₁ : 1 ≤ c) (hc₂ : c ≤ 6) : pos (seg (permute 48 r tableE ^^^ k) g 6) c = x c :=
    pos_seg_expand_xor r k hg hc₁ hc₂
  have hrow : sboxRow (seg (permute 48 r tableE ^^^ k) g 6) = (x 1).toNat * 2 + (x 6).toNat := by
    rw [sboxRow, hx 1 (by decide) (by decide), hx 6 (by decide) (by decide)]
  have hcol : sboxCol (seg (permute 48 r tableE ^^^ k) g 6) =
      (x 2).toNat * 8 + (x 3).toNat * 4 + (x 4).toNat * 2 + (x 5).toNat := by
    rw [sboxCol, hx 2 (by decide) (by decide), hx 3 (by decide) (by decide), hx 4 (by decide) (by decide),
      hx 5 (by decide) (by decide)]
  have hbit : 4 - ((q - 1) % 4 + 1) = 3 - (q - 1) % 4 := Nat.add_sub_add_right 3 1 _
  calc pos (feistel r k) p
    _ = pos (slayer (permute 48 r tableE ^^^ k)) q := pos_permute_getD _ rfl h₁ h₂
    _ = pos (subst g (seg (permute 48 r tableE ^^^ k) g 6)) ((q - 1) % 4 + 1) := pos_slayer _ hq₁ hq₂
    _ = _ := by rw [pos_subst hg, hrow, hcol, hbit]

theorem encode_sbox : ∀ g < 8, encode (.sbox g) = 0x0000000B ||| (BitVec.ofNat 64 g <<< 16) := by decide

/-- Settles O21: the six bits of A, as a number, hold the row and the column. -/
theorem sboxLooksUpOneEntry : Obligations.SboxLooksUpOneEntry := by
  intro s g hg
  refine ⟨?_, fun hlen => ?_, fun hlen => ?_⟩
  · rw [← encode_sbox g hg]
    exact decodeOfEncode (.sbox g) (decide_eq_true hg)
  · obtain ⟨hrow, hcol⟩ := sboxRow_sboxCol_eq (s.a.setWidth 6)
    have hanswer := answersY_of_result (i := .sbox g) rfl (sboxResult_ok hg (congrArg BitVec.toNat hlen))
    rwa [subst_eq_sboxEntry, hrow, hcol, BitVec.toNat_setWidth] at hanswer
  · exact answersError_of_result rfl (sboxResult_badLength hg fun h => hlen (BitVec.eq_of_toNat_eq h)) rfl

/-- Settles O22: the two lengths, as numbers, decide. -/
theorem feisAppliesTheRoundFunction : Obligations.FeisAppliesTheRoundFunction := by
  refine ⟨decodeOfEncode .feis rfl, fun s => ⟨fun ha hb => ?_, fun hlen => ?_⟩⟩
  · exact answersY_of_result rfl (feisResult_ok (congrArg BitVec.toNat ha) (congrArg BitVec.toNat hb))
  · exact answersError_of_result rfl (feisResult_badLength fun ⟨ha, hb⟩ =>
      hlen ⟨BitVec.eq_of_toNat_eq ha, BitVec.eq_of_toNat_eq hb⟩) rfl

end Sys2Proof.Claims
end

section
/-! PROOFS. The block cipher (43_block_cipher.md): FP inverts IP (R222), the reversed rounds undo the rounds (R228), palindromic subkey
lists and the weak keys (R229), and the commands ENCB and DECB (R226, R227). -/

namespace Sys2Proof.Machine

/-! ## IP and FP (43_block_cipher.md R222) -/

/-- Permuting by two tables changes nothing when the second, through the first, selects the positions in order. -/
theorem permute_permute_of_inverse {n : Nat} (s : BitVec n) {T U : List Nat} (hT : T.length = n) (hU : ∀ u ∈ U, 1 ≤ u ∧ u ≤ n)
    (hinv : U.map (fun u => T.getD (u - 1) 0) = (List.range n).map (· + 1)) : permute n (permute n s T) U = s := by
  have hlen : U.length = n := by simpa using congrArg List.length hinv
  rw [permute_permute s T U hT hU n hlen, hinv, permute_self]

theorem permute_tableFP_tableIP (s : Word) : permute 64 (permute 64 s tableIP) tableFP = s :=
  permute_permute_of_inverse s rfl (by decide) (by decide)

theorem permute_tableIP_tableFP (s : Word) : permute 64 (permute 64 s tableFP) tableIP = s :=
  permute_permute_of_inverse s rfl (by decide) (by decide)

/-! ## The rounds backwards (43_block_cipher.md R228) -/

theorem desRounds_cons (k : Subkey) (ks : List Subkey) (l r : Half) :
    desRounds (k :: ks) l r = desRounds ks r (l ^^^ feistel r k) := rfl

theorem desRounds_append (ks js : List Subkey) (l r : Half) :
    desRounds (ks ++ js) l r = desRounds js (desRounds ks l r).1 (desRounds ks l r).2 := by
  induction ks generalizing l r with
  | nil => rfl
  | cons k ks ih => exact ih r (l ^^^ feistel r k)

/-- From the swapped halves, the subkeys in reverse order lead back: a round changes one half by F of the other, which it keeps. -/
theorem desRounds_reverse (ks : List Subkey) (l r : Half) :
    desRounds ks.reverse (desRounds ks l r).2 (desRounds ks l r).1 = (r, l) := by
  induction ks generalizing l r with
  | nil => rfl
  | cons k ks ih =>
    calc desRounds (k :: ks).reverse (desRounds (k :: ks) l r).2 (desRounds (k :: ks) l r).1
      _ = desRounds [k] (l ^^^ feistel r k) r := by rw [List.reverse_cons, desRounds_append, desRounds_cons k ks, ih]
      _ = (r, l ^^^ feistel r k ^^^ feistel r k) := rfl
      _ = (r, l) := by rw [BitVec.xor_assoc, BitVec.xor_self, BitVec.xor_zero]

theorem swapAndFinish_eq (l r : Half) : swapAndFinish (l, r) = permute 64 (r ++ l) tableFP := rfl

/-- The Initial Permutation of the next DESBLOCK cancels the Final one, and leaves the halves swapped. -/
theorem desBlock_swapAndFinish (l r : Half) (ks : List Subkey) :
    desBlock (swapAndFinish (l, r)) ks = swapAndFinish (desRounds ks r l) := by
  rw [desBlock, swapAndFinish_eq l r, permute_tableIP_tableFP, firstBits_append, lastBits_append]

theorem desBlock_reverse_desBlock (b : Word) (ks : List Subkey) : desBlock (desBlock b ks) ks.reverse = b := by
  have hhalves : firstBits 32 (permute 64 b tableIP) ++ lastBits 32 (permute 64 b tableIP) = permute 64 b tableIP :=
    firstBits_append_lastBits (n := 32) (m := 32) _
  change desBlock (swapAndFinish (desRounds ks _ _)) ks.reverse = b
  rw [desBlock_swapAndFinish, desRounds_reverse, swapAndFinish_eq, hhalves, permute_tableFP_tableIP]

theorem decBlock_encBlock (b : Word) (ks : List Subkey) : decBlock (encBlock b ks) ks = b := desBlock_reverse_desBlock b ks

theorem encBlock_decBlock (b : Word) (ks : List Subkey) : encBlock (decBlock b ks) ks = b := by
  have h := desBlock_reverse_desBlock b ks.reverse
  rwa [List.reverse_reverse] at h

theorem encBlock_eq_decBlock_of_palindrome {ks : List Subkey} (h : ks.reverse = ks) (b : Word) : encBlock b ks = decBlock b ks := by
  rw [decBlock, h, encBlock]

/-! ## The weak keys (43_block_cipher.md R229) -/

theorem rotl_zeros {n k : Nat} : rotl (0#n) k = 0#n := by simp [rotl]

theorem rotl_ones {n k : Nat} (hk : k ≤ n) : rotl (~~~0#n) k = ~~~0#n := by rw [rotl_not _ hk, rotl_zeros]

/-- Halves that no rotation of the schedule changes give the same subkey in every round. -/
theorem subkeysFrom_of_fixed {ks : List Nat} {c d : KeyHalf} (hc : ∀ k ∈ ks, rotl c k = c) (hd : ∀ k ∈ ks, rotl d k = d) :
    subkeysFrom ks c d = List.replicate ks.length (permute 48 (c ++ d) tablePC2) := by
  induction ks with
  | nil => rfl
  | cons k ks ih =>
    obtain ⟨hck, hc⟩ := List.forall_mem_cons.mp hc
    obtain ⟨hdk, hd⟩ := List.forall_mem_cons.mp hd
    rw [subkeysFrom, hck, hdk, ih hc hd, List.length_cons, List.replicate_succ]

theorem shifts_le : ∀ k ∈ shifts, k ≤ 28 := by decide

theorem keySchedule_zeros : keySchedule 0x0101010101010101 = List.replicate 16 0x000000000000 := by
  have hPC1 : permute 56 (0x0101010101010101 : Word) tablePC1 = 0#28 ++ 0#28 := by decide
  have hPC2 : permute 48 (0#28 ++ 0#28) tablePC2 = 0x000000000000 := by decide
  rw [keySchedule, hPC1, firstBits_append, lastBits_append, subkeysFrom_of_fixed (fun _ _ => rotl_zeros) (fun _ _ => rotl_zeros), hPC2]
  rfl

theorem keySchedule_ones_zeros : keySchedule 0xE0E0E0E0F1F1F1F1 = List.replicate 16 0xFFFFFF000000 := by
  have hPC1 : permute 56 (0xE0E0E0E0F1F1F1F1 : Word) tablePC1 = ~~~0#28 ++ 0#28 := by decide
  have hPC2 : permute 48 (~~~0#28 ++ 0#28) tablePC2 = 0xFFFFFF000000 := by decide
  rw [keySchedule, hPC1, firstBits_append, lastBits_append,
    subkeysFrom_of_fixed (fun k hk => rotl_ones (shifts_le k hk)) (fun _ _ => rotl_zeros), hPC2]
  rfl

/-- The complement of a key with sixteen equal subkeys is one too. -/
theorem keySchedule_not_of_replicate {k k' : Word} {v v' : Subkey} (h : keySchedule k = List.replicate 16 v) (hk : k' = ~~~k)
    (hv : v' = ~~~v) : keySchedule k' = List.replicate 16 v' := by
  rw [hk, hv, keySchedule_not, h, List.map_replicate]

/-! ## The document's vector (43_block_cipher.md R229) -/

theorem encBlock_vector :
    encBlock 0x0123456789ABCDEF (keySchedule 0x133457799BBCDFF1) = 0x85E813540F0AB405 := by decide +kernel

theorem encBlock_vector_again :
    encBlock 0x85E813540F0AB405 (keySchedule 0x133457799BBCDFF1) = 0x67AE7A2961DFA345 := by decide +kernel

/-! ## The results of ENCB and DECB (43_block_cipher.md R226, R227) -/

section

variable {f : Word → List Subkey → Word} {s : State}

theorem blockResult_ok (hlen : s.aLen.toNat = 64) (hskw : s.skw = 0xFFFF) :
    blockResult f s = .ok ⟨64, f s.a s.sk.toList⟩ := by
  rw [blockResult, opndA_legal s hlen.le, except_ok_bind, failIf_pass _ _ (decide_eq_false (not_not.mpr hlen)), except_ok_bind,
    scheduleOperand_complete s hskw, except_ok_bind, BitVec.setWidth_setWidth_of_le _ hlen.ge, BitVec.setWidth_eq]
  rfl

theorem blockResult_badLength (hlen : s.aLen.toNat ≠ 64) : blockResult f s = .error .invalidBlockLength := by
  rw [blockResult]
  by_cases ha : s.aLen.toNat ≤ 64
  · rw [opndA_legal s ha, except_ok_bind, failIf_of _ _ (decide_eq_true hlen), except_error_bind]
  · rw [opndA_tooLong s (Nat.not_le.mp ha), except_error_bind]

theorem blockResult_incomplete (hlen : s.aLen.toNat = 64) (hskw : s.skw ≠ 0xFFFF) :
    blockResult f s = .error .scheduleIncomplete := by
  rw [blockResult, opndA_legal s hlen.le, except_ok_bind, failIf_pass _ _ (decide_eq_false (not_not.mpr hlen)), except_ok_bind,
    scheduleOperand_incomplete s hskw, except_error_bind]

end

end Sys2Proof.Machine

namespace Sys2Proof.Claims
open Sys2Proof.Machine

/-- Settles O8: the two tables, one through the other, are the positions in order. -/
theorem finalPermutationInvertsInitial : Obligations.FinalPermutationInvertsInitial := by
  have hentries : ∀ j ≤ 64, 1 ≤ j → tableFP.getD (tableIP.getD (j - 1) 0 - 1) 0 = j := by decide
  exact ⟨fun j h₁ h₂ => hentries j h₂ h₁, fun s => ⟨permute_tableFP_tableIP s, permute_tableIP_tableFP s⟩⟩

/-- Settles O13, by induction on the rounds. -/
theorem decryptInvertsEncrypt : Obligations.DecryptInvertsEncrypt := fun b ks => ⟨decBlock_encBlock b ks, encBlock_decBlock b ks⟩

/-- Settles O14: the halves of a weak key are all zeros or all ones, and two of the four keys are the complements of the others. -/
theorem palindromeSchedulesMakeEncryptionAnInvolution : Obligations.PalindromeSchedulesMakeEncryptionAnInvolution := by
  refine ⟨fun b ks h => ⟨encBlock_eq_decBlock_of_palindrome h b, ?_⟩, keySchedule_zeros, ?_, keySchedule_ones_zeros, ?_, ?_⟩
  · rw [encBlock_eq_decBlock_of_palindrome h b, encBlock_decBlock]
  · exact keySchedule_not_of_replicate keySchedule_zeros (by decide) (by decide)
  · exact keySchedule_not_of_replicate keySchedule_ones_zeros (by decide) (by decide)
  · rw [encBlock_vector, encBlock_vector_again]

/-! ## ENCB and DECB (43_block_cipher.md R226 to R228) -/

/-- The command puts `f` of A and the subkey file in Y; the length of A is checked first, then that all subkeys are written. -/
def AppliesToBlock (i : Instr) (f : Word → List Subkey → Word) : Prop :=
  ∀ s : State,
    (s.aLen = 64 → s.skw = 0xFFFF → AnswersY i s 64 (f s.a s.sk.toList)) ∧
    (s.aLen ≠ 64 → AnswersError i s 2) ∧
    (s.aLen = 64 → s.skw ≠ 0xFFFF → AnswersError i s 8)

theorem appliesToBlock_of_result {i : Instr} {f : Word → List Subkey → Word} (hi : writesY i = true)
    (hresult : ∀ s, resultOf i s = blockResult f s) : AppliesToBlock i f := by
  refine fun s => ⟨fun hlen hskw => ?_, fun hlen => ?_, fun hlen hskw => ?_⟩
  · exact answersY_of_result hi ((hresult s).trans (blockResult_ok (congrArg BitVec.toNat hlen) hskw))
  · have hlen' : s.aLen.toNat ≠ 64 := fun h => hlen (BitVec.eq_of_toNat_eq h)
    exact answersError_of_result hi ((hresult s).trans (blockResult_badLength hlen')) rfl
  · exact answersError_of_result hi ((hresult s).trans (blockResult_incomplete (congrArg BitVec.toNat hlen) hskw)) rfl

theorem encb_appliesToBlock : AppliesToBlock .encb encBlock := appliesToBlock_of_result rfl fun _ => rfl

theorem decb_appliesToBlock : AppliesToBlock .decb decBlock := appliesToBlock_of_result rfl fun _ => rfl

/-- A block command, and then one for the inverse function on what the first left in Y, give A back: neither writes the subkey file. -/
theorem AppliesToBlock.roundTrip {i j : Instr} {f g : Word → List Subkey → Word} (hi : AppliesToBlock i f) (hj : AppliesToBlock j g)
    (hinv : ∀ b ks, g (f b ks) ks = b) {s : State} (hlen : s.aLen = 64) (hskw : s.skw = 0xFFFF) :
    ∃ t u, exec i s = .next t ∧ exec j { t with a := t.y, aLen := t.yLen } = .next u ∧ u.y = s.a ∧ u.yLen = 64 := by
  obtain ⟨hfirst, -, -⟩ := hi s
  refine ⟨_, _, hfirst hlen hskw, (hj _).1 rfl hskw, ?_, rfl⟩
  simp only [BitVec.setWidth_eq, hinv]

/-- Settles O24: ENC applies the subkeys in the order of the file. -/
theorem encbEncryptsTheBlockInA : Obligations.EncbEncryptsTheBlockInA := ⟨decodeOfEncode .encb rfl, encb_appliesToBlock⟩

/-- Settles O25: DEC applies the subkeys in reverse. -/
theorem decbDecryptsTheBlockInA : Obligations.DecbDecryptsTheBlockInA := ⟨decodeOfEncode .decb rfl, decb_appliesToBlock⟩

/-- Settles O26, both ways round: each of ENC and DEC undoes the other. -/
theorem encbThenDecbGivesTheBlockBack : Obligations.EncbThenDecbGivesTheBlockBack := fun _ hlen hskw =>
  ⟨encb_appliesToBlock.roundTrip decb_appliesToBlock decBlock_encBlock hlen hskw,
    decb_appliesToBlock.roundTrip encb_appliesToBlock encBlock_decBlock hlen hskw⟩

end Sys2Proof.Claims
end

section
/-! PROOFS. Messages through DECODE, FRAME and ENCODE (44_message_framer.md R252 to R260): what ENCM and DECM answer for a legal input, and
that DECM reads back what ENCM wrote. -/

namespace Sys2Proof.Machine
open Sys2Proof.Claims

/-! ## DECODE reads a legal message (44_message_framer.md R254) -/

theorem concatGroups_singleton {w : Nat} (x : BitVec w) : concatGroups [x] = ⟨w, x⟩ := BitSeq.append_empty _

theorem messageBits_nil (e : Enc) : messageBits e [] = BitSeq.empty := by cases e <;> rfl

theorem messageBits_append (e : Enc) (us vs : List CodeUnit) :
    messageBits e (us ++ vs) = (messageBits e us).append (messageBits e vs) := by
  cases e <;> simp only [messageBits, List.map_append, concatGroups_append]

theorem unitBits_of_unitOk {e : Enc} {u : CodeUnit} (h : unitOk e u = true) : unitBits e u = .ok (messageBits e [u]) := by
  cases e with
  | raw =>
    have hle : u.toNat ≤ 255 := of_decide_eq_true h
    rw [unitBits, if_neg (Nat.not_lt.mpr hle), messageBits, List.map_singleton, concatGroups_singleton]
  | hex =>
    obtain ⟨d, hd⟩ := Option.isSome_iff_exists.mp h
    simp only [unitBits, messageBits, List.map_singleton, concatGroups_singleton, hd, Option.getD_some]

theorem decodeFrom_of_units {m : Memory 32} {e : Enc} {us : List CodeUnit} {i : Nat} (acc : BitSeq)
    (hread : ∀ (j : Nat) (h : j < us.length), m.read (i + j) = some us[j]) (hok : ∀ u ∈ us, unitOk e u = true) :
    decodeFrom m e us.length i acc = .ok (acc.append (messageBits e us)) := by
  induction us generalizing i acc with
  | nil => rw [messageBits_nil, BitSeq.append_empty]; rfl
  | cons u us ih =>
    obtain ⟨hu, hus⟩ := List.forall_mem_cons.mp hok
    have hhead : m.read i = some u := hread 0 (Nat.succ_pos _)
    have htail : ∀ (j : Nat) (h : j < us.length), m.read (i + 1 + j) = some us[j] := fun j h => by
      rw [Nat.add_assoc, Nat.add_comm 1]
      exact hread (j + 1) (Nat.succ_lt_succ h)
    have happend : messageBits e (u :: us) = (messageBits e [u]).append (messageBits e us) := messageBits_append e [u] us
    simp only [List.length_cons, decodeFrom, hhead, unitBits_of_unitOk hu]
    rw [ih _ htail hus, happend, BitSeq.append_assoc]

theorem decodeMessage_of_inputIs {s : State} {e : Enc} {us : List CodeUnit} (hin : InputIs s us)
    (hok : ∀ u ∈ us, unitOk e u = true) : decodeMessage s e = .ok (messageBits e us) := by
  obtain ⟨hlen, hcap, hread⟩ := hin
  have hfits : ¬s.caps.toNat < s.msgInLen.toNat := by omega
  have hread' : ∀ (j : Nat) (h : j < us.length), s.min.read (0 + j) = some us[j] := fun j h => by
    rw [Nat.zero_add]
    exact hread j h
  rw [decodeMessage, failIf_pass _ _ (decide_eq_false hfits), except_ok_bind, ← hlen,
    decodeFrom_of_units _ hread' hok, BitSeq.empty_append]

theorem cipherMessage_of_inputIs {f : Word → List Subkey → Word} {s : State} {ie oe : Enc} {us : List CodeUnit} (hin : InputIs s us)
    (hok : ∀ u ∈ us, unitOk ie u = true) (hkey : s.keyLen = 64) :
    cipherMessage f ie oe s =
      .ok (encodeMessage oe (transformBlocks f (keySchedule s.key) (frame (messageBits ie us)))) := by
  rw [cipherMessage, decodeMessage_of_inputIs hin hok, except_ok_bind, keyOperand_legal s (congrArg BitVec.toNat hkey), except_ok_bind]
  rfl

/-! ## DECODE reads what ENCODE wrote (44_message_framer.md R251, R255, R256) -/

theorem unitOk_encodeMessage (e : Enc) (q : BitSeq) : ∀ u ∈ (encodeMessage e q).map (BitVec.setWidth 32), unitOk e u = true := by
  refine List.forall_mem_map.mpr fun c hc => ?_
  cases e with
  | raw =>
    refine decide_eq_true ?_
    rw [BitVec.toNat_setWidth]
    omega
  | hex =>
    obtain ⟨d, -, rfl⟩ := List.mem_map.mp hc
    rw [unitOk, hexVal_hexChar]
    rfl

/-- A sequence of whole bytes gets no padding bits on the left, in digits or in bytes. -/
theorem messageBits_encodeMessage {q : BitSeq} (h : q.len % 8 = 0) (e : Enc) :
    messageBits e ((encodeMessage e q).map (BitVec.setWidth 32)) = q := by
  cases e with
  | raw =>
    have hbyte : (BitVec.setWidth 8 ∘ BitVec.setWidth 32 : Byte → Byte) = id :=
      funext fun c => (BitVec.setWidth_setWidth_of_le c (by decide)).trans (BitVec.setWidth_eq c)
    rw [encodeMessage, padLeft_of_mod q h, messageBits, List.map_map, hbyte, List.map_id, concatGroups_groups q (by decide) h]
  | hex =>
    have hdigit : ((fun u => (hexVal u).getD 0) ∘ BitVec.setWidth 32) ∘ hexChar = id :=
      funext fun d => congrArg (Option.getD · 0) (hexVal_hexChar d)
    have h4 : q.len % 4 = 0 := by omega
    rw [encodeMessage, padLeft_of_mod q h4, messageBits, List.map_map, List.map_map, hdigit, List.map_id,
      concatGroups_groups q (by decide) h4]

/-! ## Blocks there and back (44_message_framer.md R257, R258) -/

theorem frame_transformBlocks (f : Word → List Subkey → Word) (ks : List Subkey) (bs : List Word) :
    frame (transformBlocks f ks bs) = bs.map (fun b => f b ks) := by
  have hlen : (transformBlocks f ks bs).len % 64 = 0 := by rw [transformBlocks_len, Nat.mul_mod_right]
  rw [frame, padRight_of_mod _ hlen]
  exact groups_concatGroups _ (by decide)

theorem concatGroups_frame (q : BitSeq) : concatGroups (frame q) = padRight 64 q := by
  refine concatGroups_groups _ (by decide) ?_
  rw [padRight_len]
  exact add_padBits_mod _ (by decide)

theorem transformBlocks_inverse {f g : Word → List Subkey → Word} {ks : List Subkey} (hinv : ∀ b, g (f b ks) ks = b) (q : BitSeq) :
    transformBlocks g ks (frame (transformBlocks f ks (frame q))) = padRight 64 q := by
  have hid : (fun b => g b ks) ∘ (fun b => f b ks) = id := funext hinv
  rw [frame_transformBlocks, transformBlocks, List.map_map, hid, List.map_id, concatGroups_frame]

end Sys2Proof.Machine

namespace Sys2Proof.Claims
open Sys2Proof.Machine

/-! ## From an output to the command's answer, and on to the next command's input (60_exceptions.md R304; 20_memory.md R63) -/

theorem answersMessage_of_output {i : Instr} {s : State} {o : List Byte} (hi : writesMout i = true) (h : outputOf i s = .ok o) :
    AnswersMessage i s o := by
  refine ⟨s.mout.writeFrom 0 o, ?_, fun j => ?_⟩
  · rw [exec_writesMout hi, h]
    rfl
  · rw [Memory.read_writeFrom]
    simp

/-- An output that the host copies from MOUT to MIN is the next input, each byte as a code unit. -/
theorem inputIs_of_answersMessage {i : Instr} {s t s' : State} {o : List Byte} (h : AnswersMessage i s o) (ht : exec i s = .next t)
    (ho : o.length < 2 ^ 32) (hlen : s'.msgInLen = t.msgOutLen) (hcap : t.msgOutLen.toNat ≤ s'.caps.toNat)
    (hcopy : ∀ j, j < t.msgOutLen.toNat → s'.min.read j = (t.mout.read j).map (fun c => c.setWidth 32)) :
    InputIs s' (o.map (BitVec.setWidth 32)) := by
  obtain ⟨m, hexec, hm⟩ := h
  rw [hexec] at ht
  cases ht
  have hcount : (BitVec.ofNat 32 o.length).toNat = o.length := by rw [BitVec.toNat_ofNat, Nat.mod_eq_of_lt ho]
  simp only [hcount] at hcap hcopy
  refine ⟨by rw [hlen, hcount, List.length_map], by rwa [List.length_map], fun j hj => ?_⟩
  have hj' : j < o.length := by rwa [List.length_map] at hj
  rw [hcopy j hj', hm j, if_pos hj', List.getElem?_eq_getElem hj', Option.map_some, List.getElem_map]

/-- Settles O35: ENCODE and DECODE cancel on the whole blocks that ENCM writes, and so do ENC and DEC on each block. -/
theorem decmInvertsEncm : Obligations.DecmInvertsEncm := by
  intro s t s' us x y hin hok hkeyLen hcaps ht hkey hkeyLen' hlen hcap hcopy
  have hcipher := cipherMessage_of_inputIs (f := encBlock) (oe := y) hin hok hkeyLen
  have hsize := cipherMessage_length_le hcipher
  have hin' := inputIs_of_answersMessage (answersMessage_of_output (i := .encm x y) rfl hcipher) ht (by omega) hlen hcap hcopy
  have hplain := cipherMessage_of_inputIs (f := decBlock) (oe := x) hin' (unitOk_encodeMessage y _) hkeyLen'
  have hbytes : (transformBlocks encBlock (keySchedule s.key) (frame (messageBits x us))).len % 8 = 0 := by
    rw [transformBlocks_len]
    omega
  rw [messageBits_encodeMessage hbytes, hkey, transformBlocks_inverse fun b => decBlock_encBlock b _] at hplain
  exact answersMessage_of_output rfl hplain

end Sys2Proof.Claims
end

section
/-! PROOFS. What ENCM, DECM and CONV answer (44_message_framer.md R254, R259 to R261, R265): their outputs for a legal input, their errors
in the order of the checks, and what they neither read nor write. -/

namespace Sys2Proof.Machine
open Sys2Proof.Claims

/-! ## The loop of DECODE, element by element (44_message_framer.md R254) -/

/-- What the loop of DECODE answers for element `i` alone. -/
def inputElement (m : Memory 32) (e : Enc) (i : Nat) : Except CmdError BitSeq :=
  match m.read i with
  | none => .error .uninitializedBuffer
  | some u => unitBits e u

theorem inputElement_unwritten {m : Memory 32} {i : Nat} (h : m.read i = none) (e : Enc) :
    inputElement m e i = .error .uninitializedBuffer := by
  rw [inputElement, h]

theorem inputElement_written {m : Memory 32} {i : Nat} {u : CodeUnit} (h : m.read i = some u) (e : Enc) :
    inputElement m e i = unitBits e u := by
  rw [inputElement, h]

/-- The loop reads one element and goes on from the next. -/
theorem decodeFrom_succ (m : Memory 32) (e : Enc) (count i : Nat) (acc : BitSeq) :
    decodeFrom m e (count + 1) i acc = inputElement m e i >>= fun x => decodeFrom m e count (i + 1) (acc.append x) := by
  rw [decodeFrom, inputElement]
  cases m.read i with
  | none => rfl
  | some u => dsimp only; cases unitBits e u <;> rfl

/-- Elements that are all acceptable are read to the end. -/
theorem decodeFrom_good {m : Memory 32} {e : Enc} {count i : Nat} (acc : BitSeq)
    (hgood : ∀ k < count, ∃ x, inputElement m e (i + k) = .ok x) : ∃ q, decodeFrom m e count i acc = .ok q := by
  induction count generalizing i acc with
  | zero => exact ⟨acc, rfl⟩
  | succ count ih =>
    obtain ⟨x, hx⟩ : ∃ x, inputElement m e i = .ok x := hgood 0 (Nat.succ_pos count)
    rw [decodeFrom_succ, hx, except_ok_bind]
    refine ih _ fun k hk => ?_
    rw [Nat.add_right_comm]
    exact hgood (k + 1) (Nat.succ_lt_succ hk)

/-- The first bad element decides. -/
theorem decodeFrom_firstBad {m : Memory 32} {e : Enc} {count i j : Nat} {err : CmdError} (acc : BitSeq) (hj : j < count)
    (hgood : ∀ k < j, ∃ x, inputElement m e (i + k) = .ok x) (hbad : inputElement m e (i + j) = .error err) :
    decodeFrom m e count i acc = .error err := by
  induction count generalizing i j acc with
  | zero => exact absurd hj (Nat.not_lt_zero j)
  | succ count ih =>
    rw [decodeFrom_succ]
    cases j with
    | zero =>
      have hhead : inputElement m e i = .error err := hbad
      rw [hhead, except_error_bind]
    | succ j =>
      obtain ⟨x, hx⟩ : ∃ x, inputElement m e i = .ok x := hgood 0 (Nat.succ_pos j)
      rw [hx, except_ok_bind]
      refine ih _ (Nat.lt_of_succ_lt_succ hj) (fun k hk => ?_) ?_
      · rw [Nat.add_right_comm]
        exact hgood (k + 1) (Nat.succ_lt_succ hk)
      · rwa [Nat.add_right_comm]

/-! ## DECODE on any input (44_message_framer.md R252 to R254) -/

/-- The error of an element that the input form has no bits for (44_message_framer.md R252, R253). -/
def encodingError : Enc → CmdError
  | .raw => .encodingOverflow
  | .hex => .invalidHexDigit

theorem code_encodingError (e : Enc) : (encodingError e).code = BitVec.ofNat 8 (encodingErrorCode e) := by cases e <;> rfl

theorem unitBits_of_not_unitOk {e : Enc} {u : CodeUnit} (h : unitOk e u = false) : unitBits e u = .error (encodingError e) := by
  cases e with
  | raw =>
    have hlt : 255 < u.toNat := Nat.not_le.mp (of_decide_eq_false h)
    exact if_pos hlt
  | hex =>
    have hnone : hexVal u = none := Option.isNone_iff_eq_none.mp (Option.isSome_eq_false_iff.mp h)
    rw [unitBits, hnone]
    rfl

theorem inputElement_of_goodBefore {e : Enc} {s : State} {j : Nat} (h : GoodBefore e s j) :
    ∀ k < j, ∃ x, inputElement s.min e (0 + k) = .ok x := fun k hk => by
  obtain ⟨u, hread, hu⟩ := h k hk
  rw [Nat.zero_add, inputElement_written hread]
  exact ⟨_, unitBits_of_unitOk hu⟩

theorem decodeMessage_tooLong {s : State} (h : s.caps.toNat < s.msgInLen.toNat) (e : Enc) :
    decodeMessage s e = .error .bufferOverflow := by
  rw [decodeMessage, failIf_of _ _ (decide_eq_true h), except_error_bind]

theorem decodeMessage_fits {s : State} (h : s.msgInLen.toNat ≤ s.caps.toNat) (e : Enc) :
    decodeMessage s e = decodeFrom s.min e s.msgInLen.toNat 0 BitSeq.empty := by
  rw [decodeMessage, failIf_pass _ _ (decide_eq_false (Nat.not_lt.mpr h)), except_ok_bind]

theorem decodeMessage_firstBad {s : State} {e : Enc} {j : Nat} {err : CmdError} (hfits : s.msgInLen.toNat ≤ s.caps.toNat)
    (hj : j < s.msgInLen.toNat) (hbefore : GoodBefore e s j) (hbad : inputElement s.min e j = .error err) :
    decodeMessage s e = .error err := by
  rw [← Nat.zero_add j] at hbad
  rw [decodeMessage_fits hfits, decodeFrom_firstBad _ hj (inputElement_of_goodBefore hbefore) hbad]

theorem decodeMessage_good {s : State} {e : Enc} (hfits : s.msgInLen.toNat ≤ s.caps.toNat)
    (hgood : GoodBefore e s s.msgInLen.toNat) : ∃ q, decodeMessage s e = .ok q := by
  rw [decodeMessage_fits hfits]
  exact decodeFrom_good _ (inputElement_of_goodBefore hgood)

/-! ## The outputs (44_message_framer.md R259 to R261) -/

theorem cipherMessage_decodeError {s : State} {ie : Enc} {err : CmdError} (h : decodeMessage s ie = .error err)
    (f : Word → List Subkey → Word) (oe : Enc) : cipherMessage f ie oe s = .error err := by
  rw [cipherMessage, h, except_error_bind]

theorem convMessage_decodeError {s : State} {ie : Enc} {err : CmdError} (h : decodeMessage s ie = .error err) (oe : Enc) :
    convMessage ie oe s = .error err := by
  rw [convMessage, h, except_error_bind]

theorem cipherMessage_badKey {s : State} {ie : Enc} {q : BitSeq} (h : decodeMessage s ie = .ok q) (hkey : s.keyLen ≠ 64)
    (f : Word → List Subkey → Word) (oe : Enc) : cipherMessage f ie oe s = .error .invalidKeyLength := by
  have hkey' : s.keyLen.toNat ≠ 64 := fun h64 => hkey (BitVec.eq_of_toNat_eq h64)
  rw [cipherMessage, h, except_ok_bind, keyOperand_illegal s hkey', except_error_bind]

theorem convMessage_of_inputIs {s : State} {ie oe : Enc} {us : List CodeUnit} (hin : InputIs s us)
    (hok : ∀ u ∈ us, unitOk ie u = true) : convMessage ie oe s = .ok (encodeMessage oe (messageBits ie us)) := by
  rw [convMessage, decodeMessage_of_inputIs hin hok, except_ok_bind]
  rfl

/-- The state with another content of the subkey file, A, B and Y, and of the registers that say how much of each counts. -/
abbrev State.withEngine (s : State) (sk : Vector Subkey 16) (skw : BitVec 16) (a b y : Word) (n m k : BitVec 8) : State :=
  { s with sk := sk, skw := skw, a := a, aLen := n, b := b, bLen := m, y := y, yLen := k }

theorem outputOf_withEngine (i : Instr) (s : State) (sk : Vector Subkey 16) (skw : BitVec 16) (a b y : Word) (n m k : BitVec 8) :
    outputOf i (s.withEngine sk skw a b y n m k) = outputOf i s := by
  cases i <;> rfl

end Sys2Proof.Machine

namespace Sys2Proof.Claims
open Sys2Proof.Machine

theorem answersError_of_output {i : Instr} {s : State} {e : CmdError} {code : Nat} (hi : writesMout i = true)
    (h : outputOf i s = .error e) (hcode : e.code = BitVec.ofNat 8 code) : AnswersError i s code := by
  rw [AnswersError, exec_writesMout hi, h, errStatus, ← hcode]
  rfl

/-- DECODE comes first in all three commands, so its error is theirs. -/
theorem answersError_of_decodeError {s : State} {ie : Enc} {e : CmdError} {code : Nat} (h : decodeMessage s ie = .error e)
    (hcode : e.code = BitVec.ofNat 8 code) (oe : Enc) :
    AnswersError (.encm ie oe) s code ∧ AnswersError (.decm ie oe) s code ∧ AnswersError (.conv ie oe) s code :=
  ⟨answersError_of_output rfl (cipherMessage_decodeError h encBlock oe) hcode,
    answersError_of_output rfl (cipherMessage_decodeError h decBlock oe) hcode,
    answersError_of_output rfl (convMessage_decodeError h oe) hcode⟩

/-- Settles O27: the two commands differ in the block function alone. -/
theorem messageCommandsTransformEveryBlock : Obligations.MessageCommandsTransformEveryBlock := fun _ _ _ _ hin hok hkey =>
  ⟨answersMessage_of_output rfl (cipherMessage_of_inputIs hin hok hkey),
    answersMessage_of_output rfl (cipherMessage_of_inputIs hin hok hkey)⟩

/-- Settles O28: DECODE reads the bits of the message, and ENCODE follows at once. -/
theorem convReencodesTheMessage : Obligations.ConvReencodesTheMessage := fun _ _ _ _ hin hok =>
  answersMessage_of_output rfl (convMessage_of_inputIs hin hok)

/-- Settles O30: the length is checked before the loop of DECODE, and the key after it. -/
theorem messageErrorsInOrder : Obligations.MessageErrorsInOrder := by
  refine fun s ie oe => ⟨fun hlong => ?_, fun j hfits hj hbefore => ⟨fun hnone => ?_, fun u hread hbad => ?_⟩,
    fun hfits hgood hkey => ?_⟩
  · exact answersError_of_decodeError (decodeMessage_tooLong hlong ie) rfl oe
  · exact answersError_of_decodeError (decodeMessage_firstBad hfits hj hbefore (inputElement_unwritten hnone ie)) rfl oe
  · have helement : inputElement s.min ie j = .error (encodingError ie) :=
      (inputElement_written hread ie).trans (unitBits_of_not_unitOk hbad)
    exact answersError_of_decodeError (decodeMessage_firstBad hfits hj hbefore helement) (code_encodingError ie) oe
  · obtain ⟨q, hq⟩ := decodeMessage_good hfits hgood
    exact ⟨answersError_of_output rfl (cipherMessage_badKey hq hkey encBlock oe) rfl,
      answersError_of_output rfl (cipherMessage_badKey hq hkey decBlock oe) rfl⟩

/-- Settles O45: the writes are those of O38, and the output is that of the state with the old subkey file, A, B and Y. -/
theorem messageCommandsLeaveTheEngineAlone : Obligations.MessageCommandsLeaveTheEngineAlone := by
  intro i s t sk skw a b y n m k hm h
  obtain ⟨-, -, hframe⟩ := commandsWriteOnlyTheirResults i s t h
  obtain ⟨hwrites, -⟩ := hframe hm
  refine ⟨hwrites, ?_⟩
  change exec i (s.withEngine sk skw a b y n m k) = .next (t.withEngine sk skw a b y n m k)
  rw [exec_writesMout hm] at h ⊢
  rw [outputOf_withEngine]
  rcases finishMessage_next h with ⟨e, hout, rfl⟩ | ⟨o, hout, rfl⟩
  · rw [hout]
    rfl
  · rw [hout]
    rfl

end Sys2Proof.Claims
end

section
/-! PROOFS. ENCODE, FRAME and the block transform (44_message_framer.md R255 to R258, R261 to R264): the digits, blocks and lengths of an
output, what CONV makes of each element, and the padding that a decrypted text keeps. -/

namespace Sys2Proof.Machine
open Sys2Proof.Claims

/-! ## Padding (44_message_framer.md R255 to R257) -/

/-- Padding rounds the number of groups up. -/
theorem add_padBits_div {w : Nat} (n : Nat) (hw : 0 < w) : (n + padBits n w) / w = (n + w - 1) / w := by
  have hlt := padBits_lt n hw
  have hwhole : w * ((n + padBits n w) / w) = n + padBits n w := Nat.mul_div_cancel' (Nat.dvd_of_mod_eq_zero (add_padBits_mod n hw))
  refine (Nat.div_eq_of_lt_le ?_ ?_).symm
  · rw [Nat.mul_comm, hwhole]
    omega
  · rw [Nat.succ_mul, Nat.mul_comm, hwhole]
    omega

theorem padBits_eq {w : Nat} (n : Nat) (hw : 0 < w) : padBits n w = w * ((n + w - 1) / w) - n := by
  rw [← add_padBits_div n hw, Nat.mul_div_cancel' (Nat.dvd_of_mod_eq_zero (add_padBits_mod n hw)), Nat.add_sub_cancel_left]

theorem concatGroups_replicate_zero (w k : Nat) : concatGroups (List.replicate k 0#w) = BitSeq.zeros (w * k) := by
  induction k with
  | zero => rfl
  | succ k ih =>
    apply BitSeq.ext_toNat
    · simp
    · rw [List.replicate_succ, concatGroups, ih, BitSeq.append_toNat]
      simp [BitSeq.zeros]

/-! ## The elements of an output (44_message_framer.md R255, R256) -/

/-- The output element of a digit: a hex character, or the digit itself where it is a byte. -/
def outputElement : (e : Enc) → BitVec (digitBits e) → Byte
  | .hex, d => hexChar d
  | .raw, d => d

theorem digitBits_pos (e : Enc) : 0 < digitBits e := by cases e <;> decide

theorem encodeMessage_eq (e : Enc) (q : BitSeq) :
    encodeMessage e q = (groups (digitBits e) (padLeft (digitBits e) q)).map (outputElement e) := by
  cases e with
  | hex => rfl
  | raw => exact (List.map_id _).symm

theorem encodeMessage_length (e : Enc) (q : BitSeq) :
    (encodeMessage e q).length = (q.len + digitBits e - 1) / digitBits e := by
  rw [encodeMessage_eq, List.length_map, groups_length, padLeft_len, add_padBits_div _ (digitBits_pos e)]

/-- ENCODE of joined digits gives the digits back. -/
theorem encodeMessage_concatGroups (e : Enc) (ds : List (BitVec (digitBits e))) :
    encodeMessage e (concatGroups ds) = ds.map (outputElement e) := by
  have hwhole : (concatGroups ds).len % digitBits e = 0 := by rw [concatGroups_len, Nat.mul_mod_right]
  rw [encodeMessage_eq, padLeft_of_mod _ hwhole, groups_concatGroups _ (digitBits_pos e)]

theorem encodeMessage_hex_concatGroups (ds : List (BitVec 4)) : encodeMessage .hex (concatGroups ds) = ds.map hexChar :=
  encodeMessage_concatGroups .hex ds

theorem encodeMessage_raw_concatGroups (bs : List Byte) : encodeMessage .raw (concatGroups bs) = bs :=
  (encodeMessage_concatGroups .raw bs).trans (List.map_id bs)

theorem digitValue_outputElement (e : Enc) (d : BitVec (digitBits e)) : digitValue e (outputElement e d) = d.toNat := by
  cases e with
  | hex => exact congrArg (fun o => (o.getD 0).toNat) (hexVal_hexChar d)
  | raw => rfl

theorem hexChar_range : ∀ d : BitVec 4,
    0x30 ≤ (hexChar d).toNat ∧ (hexChar d).toNat ≤ 0x39 ∨ 0x41 ≤ (hexChar d).toNat ∧ (hexChar d).toNat ≤ 0x46 := by decide

/-- The output, read as a number, is the value of the sequence. -/
theorem encodeMessage_value (e : Enc) (q : BitSeq) :
    (encodeMessage e q).foldl (fun acc c => acc * 2 ^ digitBits e + digitValue e c) 0 = q.bits.toNat := by
  have hwhole : (padLeft (digitBits e) q).len % digitBits e = 0 := by
    rw [padLeft_len]
    exact add_padBits_mod _ (digitBits_pos e)
  rw [encodeMessage_eq, List.foldl_map]
  simp only [digitValue_outputElement]
  rw [concatGroups_toNat, concatGroups_groups _ (digitBits_pos e) hwhole, padLeft_toNat, Nat.zero_mul, Nat.zero_add]

/-! ## Lengths (44_message_framer.md R257, R262) -/

theorem messageBits_len (e : Enc) (us : List CodeUnit) : (messageBits e us).len = digitBits e * us.length := by
  cases e <;> simp only [messageBits, concatGroups_len, List.length_map, digitBits]

theorem length_frame (q : BitSeq) : (frame q).length = (q.len + 63) / 64 := by
  rw [frame_length, add_padBits_div _ (by decide)]
  rfl

theorem length_cipherOutput (ie oe : Enc) (us : List CodeUnit) (f : Word → List Subkey → Word) (ks : List Subkey) :
    (encodeMessage oe (transformBlocks f ks (frame (messageBits ie us)))).length = cipherLength ie oe us.length := by
  rw [encodeMessage_length, transformBlocks_len, length_frame, messageBits_len]
  cases ie <;> cases oe <;> simp only [digitBits, cipherLength] <;> omega

theorem length_convOutput (ie oe : Enc) (us : List CodeUnit) :
    (encodeMessage oe (messageBits ie us)).length = convLength ie oe us.length := by
  rw [encodeMessage_length, messageBits_len]
  cases ie <;> cases oe <;> simp only [digitBits, convLength] <;> omega

theorem cipherLength_le (ie oe : Enc) (n : Nat) : cipherLength ie oe n ≤ 2 * n + 14 := by
  cases ie <;> cases oe <;> simp only [cipherLength] <;> omega

theorem convLength_le (ie oe : Enc) (n : Nat) : convLength ie oe n ≤ 2 * n + 14 := by
  cases ie <;> cases oe <;> simp only [convLength] <;> omega

/-! ## Digits in pairs (44_message_framer.md R256, R261) -/

/-- Bytes are joined as their two halves each. -/
theorem concatGroups_flatMap_halves {α : Type} (us : List α) (hi lo : α → BitVec 4) :
    concatGroups (us.flatMap fun u => [hi u, lo u]) = concatGroups (us.map fun u => hi u ++ lo u) := by
  induction us with
  | nil => rfl
  | cons u us ih =>
    have hjoin : concatGroups [hi u, lo u] = ⟨8, hi u ++ lo u⟩ := by
      rw [concatGroups, concatGroups_singleton]
      rfl
    rw [List.flatMap_cons, concatGroups_append, ih, hjoin]
    rfl

theorem setWidth_eq_halves (u : CodeUnit) : u.setWidth 8 = u.extractLsb' 4 4 ++ u.extractLsb' 0 4 := by
  rw [BitVec.setWidth_eq_extractLsb' (by decide)]
  exact (BitVec.extractLsb'_append_extractLsb'_eq_extractLsb' (start₂ := 4) (start₁ := 0) (len₂ := 4) (len₁ := 4) rfl).symm

/-- A group of double width is two groups that follow each other. -/
theorem seg_concatGroups_pair {w : Nat} (ds : List (BitVec w)) (j : Nat) (h : 2 * j + 1 < ds.length) :
    seg (concatGroups ds).bits j (w + w) = ds.getD (2 * j) 0 ++ ds.getD (2 * j + 1) 0 := by
  have hlen : (j + 1) * (w + w) ≤ (concatGroups ds).len := by
    rw [concatGroups_len]
    calc (j + 1) * (w + w)
      _ = w * (2 * j + 2) := by ring
      _ ≤ w * ds.length := Nat.mul_le_mul_left w h
  rw [List.getD_eq_getElem _ _ (by omega), List.getD_eq_getElem _ _ h]
  apply eq_of_pos
  intro p h₁ h₂
  rw [pos_seg _ hlen h₁ h₂]
  by_cases hp : p ≤ w
  · have hindex : j * (w + w) + p = 2 * j * w + p := by ring
    rw [hindex, pos_concatGroups ds (2 * j) (by omega) h₁ hp, pos_append_left _ _ hp]
  · obtain ⟨p, rfl⟩ : ∃ r, p = w + r := ⟨p - w, by omega⟩
    have hindex : j * (w + w) + (w + p) = (2 * j + 1) * w + p := by ring
    rw [hindex, pos_concatGroups ds (2 * j + 1) h (by omega) (by omega), pos_append_right _ _ (by omega) (by omega)]

/-- An odd number of digits gets one zero digit in front. -/
theorem padLeft_concatGroups_digits (ds : List (BitVec 4)) :
    padLeft 8 (concatGroups ds) = concatGroups (List.replicate (ds.length % 2) 0#4 ++ ds) := by
  have hpad : padBits (concatGroups ds).len 8 = 4 * (ds.length % 2) := by
    rw [concatGroups_len, padBits]
    omega
  rw [padLeft, hpad, concatGroups_append, concatGroups_replicate_zero]

theorem getD_replicate_append (ds : List (BitVec 4)) (n k : Nat) :
    (List.replicate n 0#4 ++ ds).getD k 0 = if k < n then 0#4 else ds.getD (k - n) 0 := by
  split
  next h => rw [List.getD_append _ _ _ _ (by rwa [List.length_replicate]), List.getD_replicate _ h]
  next h => rw [List.getD_append_right _ _ _ _ (by rw [List.length_replicate]; omega), List.length_replicate]

theorem encodeMessage_raw_digits (ds : List (BitVec 4)) {j : Nat} (hj : j < (ds.length + 1) / 2) :
    (encodeMessage .raw (concatGroups ds))[j]? =
      some ((if ds.length % 2 = 1 ∧ j = 0 then 0#4 else ds.getD (2 * j - ds.length % 2) 0) ++
        ds.getD (2 * j + 1 - ds.length % 2) 0) := by
  have hlen : (List.replicate (ds.length % 2) 0#4 ++ ds).length = ds.length % 2 + ds.length := by simp
  have hfirst : 2 * j < ds.length % 2 ↔ ds.length % 2 = 1 ∧ j = 0 := by omega
  have hsecond : ¬2 * j + 1 < ds.length % 2 := by omega
  have hgroup : j < (concatGroups (List.replicate (ds.length % 2) 0#4 ++ ds)).len / 8 := by
    rw [concatGroups_len, hlen]
    omega
  rw [encodeMessage, padLeft_concatGroups_digits, groups, List.getElem?_map, List.getElem?_range hgroup, Option.map_some,
    seg_concatGroups_pair (w := 4) _ j (by omega), getD_replicate_append, getD_replicate_append, if_neg hsecond]
  simp only [hfirst]

/-! ## A padded text in bytes (44_message_framer.md R257, R264) -/

theorem padRight_concatGroups_bytes (bs : List Byte) :
    padRight 64 (concatGroups bs) = concatGroups (bs ++ List.replicate (8 * ((bs.length + 7) / 8) - bs.length) 0#8) := by
  have hpad : padBits (concatGroups bs).len 64 = 8 * (8 * ((bs.length + 7) / 8) - bs.length) := by
    rw [concatGroups_len, padBits]
    omega
  rw [padRight, hpad, concatGroups_append, concatGroups_replicate_zero]

end Sys2Proof.Machine

namespace Sys2Proof.Claims
open Sys2Proof.Machine

/-- Settles O31: the digits are the groups of the padded sequence. -/
theorem encodeWritesTheValueInDigits : Obligations.EncodeWritesTheValueInDigits := by
  refine fun e q => ⟨encodeMessage_length e q, encodeMessage_value e q, ?_⟩
  rintro rfl c hc
  obtain ⟨d, -, rfl⟩ := List.mem_map.mp hc
  exact hexChar_range d

/-- Settles O32: the blocks are the groups of the padded sequence. -/
theorem framePadsOnTheRight : Obligations.FramePadsOnTheRight := by
  refine fun q => ⟨length_frame q, ?_, ?_⟩
  · rw [concatGroups_len, length_frame]
  · rw [concatGroups_frame, padRight_toNat, padBits_eq _ (by decide)]
    rfl

/-- Settles O33: the transform joins the images of the blocks. -/
theorem blocksAreIndependent : Obligations.BlocksAreIndependent := by
  intro f ks bs
  have hblock : ∀ (j : Nat) (h : j < bs.length), seg (transformBlocks f ks bs).bits j 64 = f bs[j] ks := fun j h => by
    rw [transformBlocks, seg_concatGroups _ j (by rwa [List.length_map]), List.getElem_map]
  refine ⟨transformBlocks_len f ks bs, hblock, fun j k hj hk heq => ?_⟩
  rw [List.getElem?_eq_getElem hj, List.getElem?_eq_getElem hk] at heq
  rw [hblock j hj, hblock k hk, Option.some.inj heq]

/-- Settles O34: from the number of bits an element stands for, in the input and in the output. -/
theorem outputLengthsFitMout : Obligations.OutputLengthsFitMout := by
  intro us ie oe f ks msgCap
  have hcipher := cipherLength_le ie oe us.length
  have hconv := convLength_le ie oe us.length
  exact ⟨length_cipherOutput ie oe us f ks, length_convOutput ie oe us, hcipher, hconv, fun hcap => by omega⟩

/-- Settles O29: a message is joined from its digits or bytes, and ENCODE splits it into digits or bytes again. -/
theorem convOutputElementByElement : Obligations.ConvOutputElementByElement := by
  refine fun us => ⟨fun _ => ⟨?_, ?_⟩, fun _ => ⟨?_, fun j hj => ?_⟩⟩
  · exact encodeMessage_raw_concatGroups _
  · have hbits : messageBits .raw us = concatGroups (us.flatMap fun u => [u.extractLsb' 4 4, u.extractLsb' 0 4]) := by
      rw [concatGroups_flatMap_halves, messageBits]
      simp only [setWidth_eq_halves]
    rw [hbits, encodeMessage_hex_concatGroups, List.map_flatMap]
    rfl
  · rw [messageBits, encodeMessage_hex_concatGroups, List.map_map]
    rfl
  · have hdigit : ∀ k, (us.map fun u => (hexVal u).getD 0).getD k 0 = (us[k]?.bind hexVal).getD 0 := fun k => by
      rw [List.getD_eq_getElem?_getD, List.getElem?_map]
      cases us[k]? <;> rfl
    rw [messageBits, encodeMessage_raw_digits _ (by rwa [List.length_map])]
    simp only [hdigit, List.length_map]

/-- Settles O36: the round trip of O35, whose padding is whole bytes of zeros. -/
theorem textComesBackWithItsPadding : Obligations.TextComesBackWithItsPadding := by
  intro s t s' us hin hok hkeyLen hcaps ht hkey hkeyLen' hlen hcap hcopy
  have hback := decmInvertsEncm s t s' us .raw .hex hin hok hkeyLen hcaps ht hkey hkeyLen' hlen hcap hcopy
  have hbytes : encodeMessage .raw (padRight 64 (messageBits .raw us)) =
      us.map (fun u => u.setWidth 8) ++ List.replicate (8 * ((us.length + 7) / 8) - us.length) 0#8 := by
    rw [messageBits, padRight_concatGroups_bytes, encodeMessage_raw_concatGroups, List.length_map]
  rwa [hbytes] at hback

end Sys2Proof.Claims
end

section
/-! PROOFS. The two ways a command ends (60_exceptions.md R302 to R304, R318), how long ERR_STICKY lasts (R305), a failed command repeated
(R319), and the access that a step performs (70_reset_and_hazards.md R352, R354). -/

namespace Sys2Proof.Machine

/-! ## A command always ends (60_exceptions.md R302, R318) -/

theorem finishY_ends (s : State) (r : Except CmdError BitSeq) : ∃ t, finishY s r = .next t := by
  cases r with
  | error e => exact ⟨_, finishY_error s e⟩
  | ok v => exact ⟨_, finishY_ok s v⟩

theorem finishMessage_ends (s : State) (r : Except CmdError (List Byte)) : ∃ t, finishMessage s r = .next t := by
  cases r with
  | error e => exact ⟨_, finishMessage_error s e⟩
  | ok o => exact ⟨_, finishMessage_ok s o⟩

theorem execDerive_ends (s : State) : ∃ t, execDerive s = .next t := by
  by_cases hk : s.keyLen.toNat = 64
  · exact ⟨_, execDerive_legal hk⟩
  · exact ⟨_, execDerive_illegal hk⟩

/-! ## ERR tells the two ways apart (60_exceptions.md R303, R304) -/

theorem failed_of_runCommand_err {w : Word} {s t : State} (h : runCommand w s = .next t) (herr : t.status.err = true) :
    ∃ e, t = (s.setCmd w).failed e := by
  rcases runCommand_next h with hfail | ⟨-, -, -, -, hst⟩
  · exact hfail
  · rw [hst] at herr
    exact nomatch herr

theorem recordSuccess_of_runCommand {w : Word} {s t : State} (h : runCommand w s = .next t) (herr : t.status.err = false) :
    t.cmd = w ∧ t.status = s.status.recordSuccess (w.extractLsb' 0 6) := by
  rcases runCommand_next h with ⟨e, rfl⟩ | ⟨-, -, -, hcmd, hst⟩
  · exact nomatch herr
  · exact ⟨hcmd, hst⟩

/-! ## ERR_STICKY stays set (60_exceptions.md R305) -/

theorem errSticky_runCommand {w : Word} {s t : State} (h : runCommand w s = .next t) (hs : s.status.errSticky = true) :
    t.status.errSticky = true := by
  rcases runCommand_next h with ⟨e, rfl⟩ | ⟨-, -, -, -, hst⟩
  · rfl
  · rw [hst]
    exact hs

theorem status_writeReg {s t : State} {r : Reg} {v : Word} (h : s.writeReg r v = some t) : t.status = s.status := by
  rcases writeReg_next h with ⟨k, -, rfl⟩ | ⟨j, -, rfl⟩ | ht
  · exact State.writeSk_status s k v
  · exact State.writePtab_status s j v
  · rw [ht]

theorem errSticky_perform {a : Access} {s t : State} (h : perform a s = .next t) (ha : a ≠ .reset)
    (hs : s.status.errSticky = true) : t.status.errSticky = true := by
  rcases perform_next h with ⟨hr, -⟩ | ⟨_, _, v, -, rfl⟩ | ⟨i, v, -, -, rfl⟩ | ⟨_, v, -, -, hc⟩ | ⟨_, v, r, -, -, -, hw⟩
  · exact absurd hr ha
  · exact hs
  · exact hs
  · exact errSticky_runCommand hc hs
  · rw [status_writeReg hw]
    exact hs

/-! ## Repeating a command (60_exceptions.md R319) -/

/-- A CMD write overwrites the word that CMD held (10_state.md R25). -/
theorem runCommand_setCmd (w v : Word) (s : State) : runCommand w (s.setCmd v) = runCommand w s := rfl

/-- A failed command left CMD and STATUS changed, and the repeated write overwrites CMD: STATUS alone is left (60_exceptions.md R303). -/
theorem runCommand_failed (w : Word) (s : State) (e : CmdError) :
    runCommand w ((s.setCmd w).failed e) = runCommand w (s.withStatus (Status.recordError e (w.extractLsb' 0 6))) :=
  runCommand_setCmd w w (s.withStatus _)

end Sys2Proof.Machine

namespace Sys2Proof.Claims
open Sys2Proof.Machine

/-- A CMD write does not read STATUS either: O43 for a word that decodes, and IllegalCommand for one that does not. -/
theorem runCommand_withStatus {w : Word} {s t : State} (st : Status) (h : runCommand w s = .next t) :
    runCommand w (s.withStatus st) = .next (t.afterStatus st) := by
  by_cases hd : ∃ i, decode w = .ok i
  · obtain ⟨i, hi⟩ := hd
    rw [runCommand_of_decode hi] at h ⊢
    exact noCommandReadsStatus i (s.setCmd w) t st h
  · rw [runCommand_of_illegal hd] at h ⊢
    cases h
    exact congrArg _ ((s.setCmd w).failed_withStatus st .illegalCommand)

/-- Settles O37, by the kinds of commands: each has an ending for every result. -/
theorem everyCommandEndsInANextState : Obligations.EveryCommandEndsInANextState := by
  intro i s
  rcases command_kind i with rfl | hy | hm
  · exact execDerive_ends s
  · rw [exec_writesY hy]
    exact finishY_ends s _
  · rw [exec_writesMout hm]
    exact finishMessage_ends s _

/-- Settles O39: `raise` is R303's ending by definition, and a CMD write that leaves ERR set ended by it. -/
theorem errorsChangeStatusOnly : Obligations.ErrorsChangeStatusOnly := by
  refine fun w s => ⟨fun e => rfl, fun t h herr => ?_⟩
  obtain ⟨e, rfl⟩ := failed_of_runCommand_err h herr
  exact ⟨e, rfl⟩

/-- Settles O40: a CMD write that leaves ERR clear recorded success. -/
theorem successIsRecorded : Obligations.SuccessIsRecorded := fun _ _ _ h herr => recordSuccess_of_runCommand h herr

/-- Settles O41, by the cases of a step; the reset input is the one access that clears ERR_STICKY. -/
theorem stickyErrorLastsUntilReset : Obligations.StickyErrorLastsUntilReset := by
  refine ⟨fun w s t h herr => ?_, fun s t h hnext hs => ?_, fun s t h ⟨rest, hp⟩ => ?_⟩
  · obtain ⟨e, rfl⟩ := failed_of_runCommand_err h herr
    rfl
  · rcases step_next h with ⟨-, rfl⟩ | ⟨a, rest, hp, ha⟩
    · exact hs
    · have hreset : a ≠ .reset := by
        rintro rfl
        exact hnext ⟨rest, hp⟩
      exact errSticky_perform ha hreset hs
  · rw [step_of_pending hp] at h
    cases h
    rfl

/-- Settles O42: the repeated write meets the same state but for STATUS, which no command reads, and records the same error again. -/
theorem repeatedFailureIsTheSame : Obligations.RepeatedFailureIsTheSame := by
  intro w s t h herr
  obtain ⟨e, rfl⟩ := failed_of_runCommand_err h herr
  rw [runCommand_failed]
  exact runCommand_withStatus _ h

/-- Settles O47, by the two cases of the host's list of accesses. -/
theorem stepPerformsTheNextAccess : Obligations.StepPerformsTheNextAccess := by
  refine ⟨fun s a rest hp => step_of_pending hp, fun s hp => ?_⟩
  rw [step, nextAccess, hp]

end Sys2Proof.Claims
end

section
/-! PROOFS. What each command does on reset values (70_reset_and_hazards.md R343), from what each command does on any state: after reset
every length register is 0 and MIN holds the empty message (10_state.md R42). -/

namespace Sys2Proof.Claims
open Sys2Proof.Machine

/-- A result of no bits is the empty sequence, whatever else is known of it. -/
theorem answersY_empty {i : Instr} {s : State} {n : Nat} {P : BitVec n → Prop} (h : ∃ v : BitVec n, AnswersY i s n v ∧ P v)
    (hn : n = 0) : AnswersY i s 0 0#0 := by
  subst hn
  obtain ⟨v, hv, -⟩ := h
  rwa [BitVec.of_length_zero (x := v)] at hv

/-- A fixed-table command refuses an A of no bits, because every table has an entry above 0 (40_bitseq.md R125 to R130). -/
theorem fixedPermutation_refuses_empty {i : Instr} (hi : i ∈ fixedPermutations.map Prod.fst) {s : State} (ha : s.aLen = 0) :
    AnswersError i s 5 := by
  obtain ⟨⟨i, w, max, T⟩, hmem, rfl⟩ := List.mem_map.mp hi
  obtain ⟨-, ⟨hmax, hentries⟩, hanswers⟩ := fixedPermutationsSelectPositions i w max T hmem
  obtain ⟨-, -, hshort⟩ := hanswers s
  obtain ⟨hpos, -⟩ := hentries max hmax
  refine hshort ?_
  rw [ha]
  exact hpos

/-- CONV writes nothing for the empty message (44_message_framer.md R261, R262). -/
theorem encodeMessage_messageBits_nil (ie oe : Enc) : encodeMessage oe (messageBits ie []) = [] := by
  apply List.eq_nil_of_length_eq_zero
  rw [length_convOutput]
  cases ie <;> cases oe <;> rfl

/-- MSG_IN_LEN is 0 after reset, so no element of MIN counts (10_state.md R42; 44_message_framer.md R254). -/
theorem inputIs_reset : InputIs State.reset [] := ⟨rfl, Nat.zero_le _, nofun⟩

/-- Settles O56, command by command: the clause that covers length 0 of what each command does on any state. -/
theorem commandsOnResetValues : Obligations.CommandsOnResetValues := by
  refine ⟨?derive, ?encb, ?decb, ?feis, fun g hg => ?sbox, ?perm, fun i hi => fixedPermutation_refuses_empty hi rfl,
    fun n hn => ?rotl, ?xor, ?cat, fun ie oe => ?message⟩
  case derive =>
    obtain ⟨-, hderive⟩ := deriveLoadsTheSubkeyFile
    exact (hderive State.reset).2 (by decide)
  case encb =>
    obtain ⟨-, hlength, -⟩ := encb_appliesToBlock State.reset
    exact hlength (by decide)
  case decb =>
    obtain ⟨-, hlength, -⟩ := decb_appliesToBlock State.reset
    exact hlength (by decide)
  case feis =>
    obtain ⟨-, hfeis⟩ := feisAppliesTheRoundFunction
    exact (hfeis State.reset).2 (by decide)
  case sbox =>
    obtain ⟨-, -, hlength⟩ := sboxLooksUpOneEntry State.reset g hg
    exact hlength (by decide)
  case perm =>
    obtain ⟨-, hperm⟩ := permPermutesByTheHostTable
    exact answersY_empty ((hperm State.reset).1 [] (by decide) (by decide) rfl nofun) rfl
  case rotl =>
    obtain ⟨-, -, -, hamount⟩ := rotlRotatesA State.reset n hn
    exact hamount (Nat.zero_le n)
  case xor =>
    obtain ⟨-, hxor⟩ := xorCombinesPositions
    exact answersY_empty ((hxor State.reset).1 rfl (by decide)) rfl
  case cat =>
    obtain ⟨-, hcat⟩ := catJoinsAAndB
    exact answersY_empty ((hcat State.reset).1 (by decide)) rfl
  case message =>
    obtain ⟨-, -, hkey⟩ := messageErrorsInOrder State.reset ie oe
    obtain ⟨hencm, hdecm⟩ := hkey (Nat.zero_le _) nofun (by decide)
    have hconv := convReencodesTheMessage State.reset [] ie oe inputIs_reset nofun
    rw [encodeMessage_messageBits_nil] at hconv
    exact ⟨hencm, hdecm, hconv⟩

end Sys2Proof.Claims
end
